-- ==== Sys2Proof/Word.lean ====
section
/-! DEFINITION. The word types of the block (00_scope.md R7): bytes, command words, bit sequences. -/

namespace Sys2Proof

/-- A byte; also a symbol, all 256 values of which are ordinary (R7, R60). -/
abbrev Byte := BitVec 8

/-- A command word (R80). -/
abbrev CmdWord := BitVec 16

/-- A bit sequence, first bit first: element 0 is the bit nearest the root of the tree (R7). -/
abbrev Bits := List Bool

end Sys2Proof
end

