-- ==== Sys2Proof/Syntax.lean ====
section
/-! DEFINITION. The commands: one constructor per row of spec/opcode_table.json, operands as 30_encoding.md
R87 assembles them. -/

namespace Sys2Proof

/-- The rows of the opcode table in the table's order (R85). DEC_BYTE has two rows: the form with last = 0
and the form with last = 1. -/
inductive Instr where
  /-- NOP (R180). -/
  | nop
  /-- CT_CLEAR (R110). -/
  | ctClear
  /-- CT_OPEN byte (R111). -/
  | ctOpen (byte : Byte)
  /-- CT_BIT b (R112). -/
  | ctBit (b : Bool)
  /-- CT_COMMIT (R113). -/
  | ctCommit
  /-- ENC_START (R130). -/
  | encStart
  /-- ENC_HDRB byte (R131). -/
  | encHdrb (byte : Byte)
  /-- ENC_HDREND (R132). -/
  | encHdrend
  /-- ENC_SYM byte (R133). -/
  | encSym (byte : Byte)
  /-- ENC_END (R135). -/
  | encEnd
  /-- DEC_START (R150). -/
  | decStart
  /-- DEC_BYTE data, with last = 0: all 8 bits of data are meaningful (R84, R151). -/
  | decByte (data : Byte)
  /-- DEC_BYTE data, last, nvalid: the final byte of the file, with nvalid = nvm1 + 1 meaningful bits, a value
  1..8 held in 4 bits (R84, R66, R87). -/
  | decByteLast (nvalid : BitVec 4) (data : Byte)
  /-- DEC_END (R158). -/
  | decEnd
  /-- A word of the reserved opcode 0xD (R182). -/
  | reservedD (arg : BitVec 12)
  /-- A word of the reserved opcode 0xE (R182). -/
  | reservedE (arg : BitVec 12)
  /-- ABORT (R181). -/
  | abort
  deriving DecidableEq, Repr

end Sys2Proof
end

