-- ==== Sys2Proof/WellFormed.lean ====
section
/-! DEFINITION. Which terms of Instr stand for a word: those whose operands their format can hold. -/

namespace Sys2Proof

/-- nvalid is nvm1 + 1 for a 3-bit nvm1, so 1..8 (30_encoding.md R84, R87). Every other operand fills its
field exactly. -/
def Instr.wf : Instr → Bool
  | .decByteLast nvalid _ => decide (1 ≤ nvalid.toNat ∧ nvalid.toNat ≤ 8)
  | .nop | .ctClear | .ctOpen _ | .ctBit _ | .ctCommit | .encStart | .encHdrb _ | .encHdrend | .encSym _
  | .encEnd | .decStart | .decByte _ | .decEnd | .reservedD _ | .reservedE _ | .abort => true

end Sys2Proof
end

