-- ==== Sys2Proof/Decode.lean ====
section
/-! DEFINITION. The command decoder and encoder: formats N, B, T, D and the opcode map (30_encoding.md
R80 to R87). -/

namespace Sys2Proof

/-- Why a word is ill-formed (R86). The reserved opcodes are rows of the table and decode to constructors of
their own, which raise E_ILLCMD by R182. -/
inductive Reject where
  /-- A bit the word's format requires to be 0 is 1 (R81, R82, R83). -/
  | mustBeZero
  /-- A DEC_BYTE word with last = 0 and nvm1 other than 7 (R84). -/
  | partialByteNotLast
  deriving DecidableEq, Repr

/-- w[15:12], the opcode (R80). -/
def opOf (w : CmdWord) : BitVec 4 := w.extractLsb' 12 4

/-- w[11:0], the argument (R80). -/
def argOf (w : CmdWord) : BitVec 12 := w.extractLsb' 0 12

/-- w[7:0]: byte of format B, data of format D (R87). -/
def byteOf (w : CmdWord) : Byte := w.extractLsb' 0 8

/-- Format N: the 12 argument bits must be 0 (R81). -/
def formatN (w : CmdWord) (i : Instr) : Except Reject Instr :=
  if argOf w = 0#12 then .ok i else .error .mustBeZero

/-- Format B: bits 11:8 must be 0 (R82). -/
def formatB (w : CmdWord) (mk : Byte → Instr) : Except Reject Instr :=
  if w.extractLsb' 8 4 = 0#4 then .ok (mk (byteOf w)) else .error .mustBeZero

/-- Format T: bits 11:1 must be 0 (R83). -/
def formatT (w : CmdWord) (mk : Bool → Instr) : Except Reject Instr :=
  if w.extractLsb' 1 11 = 0#11 then .ok (mk (w.getLsbD 0)) else .error .mustBeZero

/-- Format D: last = w[11], nvm1 = w[10:8], nvalid = nvm1 + 1; with last = 0, nvm1 must be 7 (R84, R87). -/
def formatD (w : CmdWord) : Except Reject Instr :=
  let nvm1 : BitVec 3 := w.extractLsb' 8 3
  if w.getLsbD 11 then .ok (.decByteLast (nvm1.zeroExtend 4 + 1#4) (byteOf w))
  else if nvm1 = 7#3 then .ok (.decByte (byteOf w))
  else .error .partialByteNotLast

/-- The opcode map (R85). Fifteen opcodes are named and the last arm is the sixteenth, 0xF. -/
def decode (w : CmdWord) : Except Reject Instr :=
  match opOf w with
  | 0x0#4 => formatN w .nop
  | 0x1#4 => formatN w .ctClear
  | 0x2#4 => formatB w .ctOpen
  | 0x3#4 => formatT w .ctBit
  | 0x4#4 => formatN w .ctCommit
  | 0x5#4 => formatN w .encStart
  | 0x6#4 => formatB w .encHdrb
  | 0x7#4 => formatN w .encHdrend
  | 0x8#4 => formatB w .encSym
  | 0x9#4 => formatN w .encEnd
  | 0xA#4 => formatN w .decStart
  | 0xB#4 => formatD w
  | 0xC#4 => formatN w .decEnd
  | 0xD#4 => .ok (.reservedD (argOf w))
  | 0xE#4 => .ok (.reservedE (argOf w))
  | _ => formatN w .abort

/-- A word of format B. -/
def wordB (op : BitVec 4) (byte : Byte) : CmdWord := op ++ 0#4 ++ byte

/-- A word of format N. -/
def wordN (op : BitVec 4) : CmdWord := op ++ 0#12

/-- The word of a command, from the same formats and opcode map (R81 to R85). -/
def encode : Instr → CmdWord
  | .nop => wordN 0x0#4
  | .ctClear => wordN 0x1#4
  | .ctOpen byte => wordB 0x2#4 byte
  | .ctBit b => 0x3#4 ++ 0#11 ++ BitVec.ofBool b
  | .ctCommit => wordN 0x4#4
  | .encStart => wordN 0x5#4
  | .encHdrb byte => wordB 0x6#4 byte
  | .encHdrend => wordN 0x7#4
  | .encSym byte => wordB 0x8#4 byte
  | .encEnd => wordN 0x9#4
  | .decStart => wordN 0xA#4
  | .decByte data => 0xB#4 ++ 0#1 ++ 7#3 ++ data
  | .decByteLast nvalid data => 0xB#4 ++ 1#1 ++ (nvalid - 1#4).truncate 3 ++ data
  | .decEnd => wordN 0xC#4
  | .reservedD arg => 0xD#4 ++ arg
  | .reservedE arg => 0xE#4 ++ arg
  | .abort => wordN 0xF#4

/-- A word is a well-formed command when it decodes to one of the 14 commands (R80, R86). -/
def wellFormedWord (w : CmdWord) : Bool :=
  match decode w with
  | .ok (.reservedD _) => false
  | .ok (.reservedE _) => false
  | .ok _ => true
  | .error _ => false

/-- The instruction the decoder reads from the nbits bits w; a command is one 16-bit word (R80). -/
def decodeTableWord (nbits w : Nat) : Option Instr :=
  match decode (BitVec.ofNat 16 (w % 2 ^ nbits)) with
  | .ok i => some i
  | .error _ => none

end Sys2Proof
end

