-- ==== Sys2Proof/Config.lean ====
section
/-! DEFINITION. The implementation parameters of 00_scope.md R6, at the values this hardware takes.
NSYM, SYMW and CMDW are the widths of Byte and CmdWord. MINLEN is CT_COMMIT's check for an empty path.
PAD_BIT is the 0 that a cleared packer holds (log entry 5). The block leaves nothing to chance, so no
free value stands here. -/

namespace Sys2Proof

/-- BIT_ORDER (R56): which bit of a payload byte holds the first bit written. -/
inductive BitOrder where
  | msbFirst
  | lsbFirst
  deriving DecidableEq, Repr

/-- BIT_ORDER = MSB_FIRST (R6, R56; decision D4). -/
def Config.bitOrder : BitOrder := .msbFirst

/-- MAXLEN: the longest path a table entry, the staging register or the accumulator holds (R6; D3). -/
def Config.maxLen : Nat := 255

/-- NL: the byte that ends the header line (R6, R94; D8). -/
def Config.nl : Byte := 0x0A#8

end Sys2Proof
end

