-- ==== Sys2Proof/Machine/State.lean ====
section
/-! DEFINITION. The state of the block: the elements of 10_state.md R20, the three traces of R32, and the
host inputs not yet taken. -/

namespace Sys2Proof.Machine

/-- PHASE (R21). Value 6 is never produced and has no constructor (U3). -/
inductive Phase where
  | idle | encHdr | encPay | decHdr | decTbl | decPay | fault
  deriving DecidableEq, Repr

/-- FCODE (R22, R190): no fault, or one of the nine faults. -/
inductive FCode where
  /-- 0: no fault recorded. -/
  | noFault
  /-- 1: E_ILLCMD (R191). -/
  | illCmd
  /-- 2: E_SEQ (R192). -/
  | seq
  /-- 3: E_PATHLEN (R193). -/
  | pathLen
  /-- 4: E_EMPTYPATH (R194). -/
  | emptyPath
  /-- 5: E_DUPSYM (R195). -/
  | dupSym
  /-- 6: E_CONFLICT (R196). -/
  | conflict
  /-- 7: E_UNENC (R197). -/
  | unenc
  /-- 8: E_PREMEND (R198). -/
  | premEnd
  /-- 9: E_HDREND (R199). -/
  | hdrEnd
  deriving DecidableEq, Repr

/-- An open staging register: STG_SYM and the STG_LEN bits of STG_PATH (R20, R27). -/
structure Staged where
  sym : Byte
  path : Bits
  deriving DecidableEq, Repr

/-- The code table CT (R25, R50): one cell (symbol, path) per valid entry, addresses strictly rising. An
address that is not listed is an entry with V = 0. -/
abbrev Memory := List (Nat × Bits)

/-- What the host can do to the block's inputs. -/
inductive Input where
  /-- The command port accepts a word (R31, R33). -/
  | word (w : CmdWord)
  /-- Reset, between two commands (R230). -/
  | reset
  /-- Reset that cuts short the command w after it has delivered that many of its bytes (R230, R232). -/
  | resetDuring (w : CmdWord) (delivered : Nat)
  deriving DecidableEq, Repr

/-- The reasons the machine stops: none. Every command word has a step in every state, and each of the nine
faults of R190 is a next state with PHASE = FAULT (R9, R11). -/
inductive Fault where
  deriving DecidableEq, Repr

/-- The reasons an instruction has no meaning in the model. -/
inductive Refusal where
  /-- An arm of exec that is not modelled. No arm raises it: every row of the opcode table has its meaning.
  Safe: the model would stop where the hardware goes on. -/
  | notModelled (mnemonic : String)
  deriving DecidableEq, Repr

/-- The state of the block. -/
structure State where
  /-- PHASE (R21). -/
  phase : Phase
  /-- FCODE (R22). -/
  fcode : FCode
  /-- FINFO (R23). -/
  finfo : CmdWord
  /-- TAILBITS (R24). -/
  tailBits : BitVec 3
  /-- CT (R25). -/
  ct : Memory
  /-- The staging register; none when STG_OPEN = 0 (R20, R27). -/
  stg : Option Staged
  /-- PK_BYTE (R28). -/
  pkByte : Byte
  /-- PK_CNT (R28). -/
  pkCnt : BitVec 3
  /-- ACC[0 .. ACC_LEN-1] (R29). -/
  acc : Bits
  /-- ACC_OVF (R29). -/
  accOvf : Bool
  /-- The trace of encoder output (R32). -/
  eout : List Byte
  /-- The trace of decoder header text (R32). -/
  dhdr : List Byte
  /-- The trace of decoder output (R32). -/
  dsym : List Byte
  /-- The host inputs not yet taken, the next one first: the list of words a run folds over (R9). The model's
  own field (log entry 1). -/
  input : List Input
  deriving DecidableEq, Repr

/-- The state after reset (R38, R230), at the start of a run (traces empty, R32), with no input pending
(DESIGN CHOICE, log entry 1). -/
def State.reset : State where
  phase := .idle
  fcode := .noFault
  finfo := 0#16
  tailBits := 0#3
  ct := []
  stg := none
  pkByte := 0#8
  pkCnt := 0#3
  acc := []
  accOvf := false
  eout := []
  dhdr := []
  dsym := []
  input := []

end Sys2Proof.Machine
end

