-- ==== Sys2Proof/Machine/Flags.lean ====
section
/-! DEFINITION. What the host sees of the state: STG_OPEN, the STATUS word and the fault output (10_state.md
R30, R31, R35). There are no condition codes (R35). -/

namespace Sys2Proof.Machine

/-- The value of PHASE (R21). -/
def phaseCode : Phase → BitVec 3
  | .idle => 0#3
  | .encHdr => 1#3
  | .encPay => 2#3
  | .decHdr => 3#3
  | .decTbl => 4#3
  | .decPay => 5#3
  | .fault => 7#3

/-- The value of FCODE (R190). -/
def faultCode : FCode → BitVec 4
  | .noFault => 0#4
  | .illCmd => 1#4
  | .seq => 2#4
  | .pathLen => 3#4
  | .emptyPath => 4#4
  | .dupSym => 5#4
  | .conflict => 6#4
  | .unenc => 7#4
  | .premEnd => 8#4
  | .hdrEnd => 9#4

/-- STG_OPEN (R27): a record is being staged. -/
def stgOpen (s : State) : Bool := s.stg.isSome

/-- The fault output: 1 exactly when PHASE = FAULT (R31, R207). -/
def faultLine (s : State) : Bool := s.phase == .fault

/-- The STATUS word: FINFO, reserved 15:11, TAILBITS, FCODE, STG_OPEN, PHASE (R30). -/
def status (s : State) : BitVec 32 :=
  s.finfo ++ 0#5 ++ s.tailBits ++ faultCode s.fcode ++ BitVec.ofBool (stgOpen s) ++ phaseCode s.phase

end Sys2Proof.Machine
end

