-- ==== Sys2Proof/Machine/Operands.lean ====
section
/-! DEFINITION. Bits of payload bytes: the bit order, writing one bit, and the unpacker (20_memory.md R56,
42_decoder_commands.md R154). -/

namespace Sys2Proof.Machine

/-- The position in a payload byte of its k-th bit, counting from 0 at the first written (R56). -/
def bitPos (k : Nat) : Nat :=
  match Config.bitOrder with
  | .msbFirst => 7 - k
  | .lsbFirst => k

/-- x with bit i set to b. -/
def setBit (x : Byte) (i : Nat) (b : Bool) : Byte :=
  (x &&& ~~~(1#8 <<< i)) ||| ((BitVec.ofBool b).zeroExtend 8 <<< i)

/-- The unpacker readBit: the nvalid meaningful bits of data, in the order they are delivered (R154). -/
def payloadBits (data : Byte) (nvalid : Nat) : Bits :=
  (List.range (min nvalid 8)).map fun k => data.getLsbD (bitPos k)

end Sys2Proof.Machine
end

