-- ==== Sys2Proof/Machine/Ops.lean ====
section
/-! DEFINITION. The named operations: the code table, the traces, taking a fault and returning from one, the
checks made before a command, the packer, the matcher and the end of bits. -/

namespace Sys2Proof.Machine

/-! The code table (20_memory.md R50 to R52). -/

/-- CTRead (R51): the path of entry a, or none when its V is 0. -/
def Memory.read : Memory → Nat → Option Bits
  | [], _ => none
  | (k, p) :: m, a => if k = a then some p else Memory.read m a

/-- CTWrite with V = 1 (R52): replace the whole entry a, keeping the addresses rising. -/
def Memory.write : Memory → Nat → Bits → Memory
  | [], a, p => [(a, p)]
  | (k, q) :: m, a, p =>
    if a < k then (a, p) :: (k, q) :: m
    else if a = k then (a, p) :: m
    else (k, q) :: Memory.write m a p

/-- The addresses of the valid entries whose path is p (R51). -/
def Memory.find (m : Memory) (p : Bits) : List Nat :=
  (m.filter fun e => e.2 == p).map (·.1)

/-- The canonical form: addresses rising, each a symbol, each path of 1 to MAXLEN bits (R20, R26 (a)). -/
abbrev Memory.wf (m : Memory) : Prop :=
  m.Pairwise (fun x y => x.1 < y.1) ∧
    ∀ e ∈ m, e.1 < 256 ∧ 1 ≤ e.2.length ∧ e.2.length ≤ Config.maxLen

/-- CTRead(s) (R51). -/
def ctRead (s : State) (sym : Byte) : Option Bits := s.ct.read sym.toNat

/-- CTMatch(p): the symbols whose valid entry has exactly the path p (R51, R156). -/
def ctMatch (s : State) (p : Bits) : List Byte := (s.ct.find p).map (BitVec.ofNat 8)

/-- Two paths conflict when they agree on the length of the shorter: one is a prefix of the other (R114). -/
def conflict (p q : Bits) : Bool :=
  p.take (min p.length q.length) == q.take (min p.length q.length)

/-! The traces (10_state.md R32). -/

/-- emit(EOUT, b). -/
def emitEout (b : Byte) (s : State) : State := { s with eout := s.eout ++ [b] }

/-- emit(DHDR, b). -/
def emitDhdr (b : Byte) (s : State) : State := { s with dhdr := s.dhdr ++ [b] }

/-- emit(DSYM, b). -/
def emitDsym (b : Byte) (s : State) : State := { s with dsym := s.dsym ++ [b] }

/-! Faults (60_exceptions.md). -/

/-- raise E_X(w): the fault entry (R202). -/
def raiseFault (f : FCode) (w : CmdWord) (s : State) : State :=
  { s with fcode := f, finfo := w, phase := .fault }

/-- The return from a fault, by ABORT or reset: every element of R20 takes its reset value; the traces stay
(R32, R181, R205, R230), and so do the inputs not yet taken. -/
def clearAll (s : State) : State :=
  { State.reset with eout := s.eout, dhdr := s.dhdr, dsym := s.dsym, input := s.input }

/-- The checks before a well-formed command w (30_encoding.md R88): ignored in phase FAULT (R204), E_SEQ where
it is not legal (R184, R192), else its own rule. -/
def guarded (w : CmdWord) (legal : Bool) (body : State → State) (s : State) : State :=
  if s.phase = .fault then s
  else if legal then body s
  else raiseFault .seq w s

/-- An ill-formed word w: ignored in phase FAULT, else E_ILLCMD (R86, R88, R191). -/
def illFormed (w : CmdWord) (s : State) : State :=
  if s.phase = .fault then s else raiseFault .illCmd w s

/-- The phases in which the table commands are legal (40_table_commands.md R115). -/
def tablePhase (s : State) : Bool :=
  match s.phase with
  | .idle | .encHdr | .decHdr | .decTbl => true
  | .encPay | .decPay | .fault => false

/-! The packer (41_encoder_commands.md R134). -/

/-- writeBit(b): place the bit, and emit the byte when it was the eighth (R134). -/
def writeBit (s : State) (b : Bool) : State :=
  let byte := setBit s.pkByte (bitPos s.pkCnt.toNat) b
  if s.pkCnt = 7#3 then emitEout byte { s with pkByte := 0#8, pkCnt := 0#3 }
  else { s with pkByte := byte, pkCnt := s.pkCnt + 1#3 }

/-- writeBit for each bit of a path, in path order (R133). -/
def writeBits (s : State) (p : Bits) : State := p.foldl writeBit s

/-! The matcher (42_decoder_commands.md R155, R157, R159). -/

/-- feed(b): accumulate the bit and emit the symbol when the accumulated bits equal its path; a bit that
arrives with MAXLEN bits accumulated sets ACC_OVF and is dropped (R155, R159). -/
def feed (s : State) (b : Bool) : State :=
  if s.accOvf then s
  else if Config.maxLen ≤ s.acc.length then { s with accOvf := true }
  else
    match ctMatch s (s.acc ++ [b]) with
    | [sym] => emitDsym sym { s with acc := [] }
    | _ => { s with acc := s.acc ++ [b] }

/-- feed for each delivered bit, in order (R151). -/
def feedBits (s : State) (bs : Bits) : State := bs.foldl feed s

/-- end_of_bits(), run by the command w: E_PREMEND on a non-empty accumulator, else the session completes
(R157). -/
def endOfBits (w : CmdWord) (s : State) : State :=
  if s.acc.length ≠ 0 then raiseFault .premEnd w s else { s with phase := .idle }

end Sys2Proof.Machine
end

