-- ==== Sys2Proof/Machine/Decoder.lean ====
section
/-! DEFINITION. The decoder commands DEC_START, DEC_BYTE, DEC_END (42_decoder_commands.md). -/

namespace Sys2Proof.Machine

/-- DEC_START (R150). -/
def execDecStart (s : State) : Host.Outcome State Fault Refusal :=
  .next <| guarded (encode .decStart) (s.phase == .idle)
    (fun s => { s with phase := .decHdr, acc := [], accOvf := false }) s

/-- Where DEC_BYTE and DEC_END are not E_SEQ (R151, R158, R184): DEC_HDR, DEC_TBL with no record staged,
DEC_PAY. In DEC_HDR their own rules raise E_HDREND (R88). -/
def decLegal (s : State) : Bool :=
  match s.phase with
  | .decHdr | .decPay => true
  | .decTbl => !stgOpen s
  | .idle | .encHdr | .encPay | .fault => false

/-- header_byte(data, last), run by the command w (R152). -/
def headerByte (w : CmdWord) (data : Byte) (last : Bool) (s : State) : State :=
  if data = Config.nl then { s with phase := if last then .idle else .decTbl }
  else if last then raiseFault .hdrEnd w s
  else emitDhdr data s

/-- A payload byte (R151, R153): DEC_TBL becomes DEC_PAY, then the nvalid bits are fed. -/
def payloadByte (data : Byte) (nvalid : Nat) (s : State) : State :=
  feedBits { s with phase := .decPay } (payloadBits data nvalid)

/-- DEC_BYTE data with last = 0, so nvalid = 8 (R151). -/
def execDecByte (data : Byte) (s : State) : Host.Outcome State Fault Refusal :=
  .next <| guarded (encode (.decByte data)) (decLegal s)
    (fun s =>
      if s.phase = .decHdr then headerByte (encode (.decByte data)) data false s
      else payloadByte data 8 s) s

/-- DEC_BYTE data with last = 1: the same, then the end of bits (R151, R157). -/
def execDecByteLast (nvalid : BitVec 4) (data : Byte) (s : State) : Host.Outcome State Fault Refusal :=
  .next <| guarded (encode (.decByteLast nvalid data)) (decLegal s)
    (fun s =>
      if s.phase = .decHdr then headerByte (encode (.decByteLast nvalid data)) data true s
      else endOfBits (encode (.decByteLast nvalid data)) (payloadByte data nvalid.toNat s)) s

/-- DEC_END (R158). -/
def execDecEnd (s : State) : Host.Outcome State Fault Refusal :=
  .next <| guarded (encode .decEnd) (decLegal s)
    (fun s =>
      if s.phase = .decHdr then raiseFault .hdrEnd (encode .decEnd) s
      else endOfBits (encode .decEnd) s) s

end Sys2Proof.Machine
end

