-- ==== Sys2Proof/Machine/Encoder.lean ====
section
/-! DEFINITION. The encoder commands ENC_START, ENC_HDRB, ENC_HDREND, ENC_SYM, ENC_END
(41_encoder_commands.md). -/

namespace Sys2Proof.Machine

/-- ENC_START (R130). -/
def execEncStart (s : State) : Host.Outcome State Fault Refusal :=
  .next <| guarded (encode .encStart) (s.phase == .idle)
    (fun s => { s with phase := .encHdr, pkByte := 0#8, pkCnt := 0#3, tailBits := 0#3 }) s

/-- ENC_HDRB byte (R131). -/
def execEncHdrb (byte : Byte) (s : State) : Host.Outcome State Fault Refusal :=
  .next <| guarded (encode (.encHdrb byte)) (s.phase == .encHdr) (emitEout byte) s

/-- ENC_HDREND (R132). -/
def execEncHdrend (s : State) : Host.Outcome State Fault Refusal :=
  .next <| guarded (encode .encHdrend) (s.phase == .encHdr && !stgOpen s)
    (fun s => { emitEout Config.nl s with phase := .encPay }) s

/-- The own rule of ENC_SYM byte (R133): E_UNENC on a symbol with no entry, else its path goes to the
packer. -/
def packSymbol (w : CmdWord) (byte : Byte) (s : State) : State :=
  match ctRead s byte with
  | none => raiseFault .unenc w s
  | some p => writeBits s p

/-- ENC_SYM byte (R133). -/
def execEncSym (byte : Byte) (s : State) : Host.Outcome State Fault Refusal :=
  .next <| guarded (encode (.encSym byte)) (s.phase == .encPay) (packSymbol (encode (.encSym byte)) byte) s

/-- The own rule of ENC_END (R135): emit the bits that wait, report TAILBITS, close the session. -/
def flushPacker (s : State) : State :=
  { (if s.pkCnt ≠ 0#3 then emitEout s.pkByte s else s) with
    tailBits := s.pkCnt, pkByte := 0#8, pkCnt := 0#3, phase := .idle }

/-- ENC_END (R135). -/
def execEncEnd (s : State) : Host.Outcome State Fault Refusal :=
  .next <| guarded (encode .encEnd) (s.phase == .encPay) flushPacker s

end Sys2Proof.Machine
end

