-- ==== Sys2Proof/Machine/System.lean ====
section
/-! DEFINITION. The system commands NOP and ABORT and the reserved opcodes (43_system_commands.md). -/

namespace Sys2Proof.Machine

/-- NOP (R180): no effect in any phase. -/
def execNop (s : State) : Host.Outcome State Fault Refusal := .next s

/-- ABORT (R181): legal always, phase FAULT included. -/
def execAbort (s : State) : Host.Outcome State Fault Refusal := .next (clearAll s)

/-- A word of the reserved opcode 0xD (R182): ill-formed. -/
def execReservedD (arg : BitVec 12) (s : State) : Host.Outcome State Fault Refusal :=
  .next (illFormed (encode (.reservedD arg)) s)

/-- A word of the reserved opcode 0xE (R182): ill-formed. -/
def execReservedE (arg : BitVec 12) (s : State) : Host.Outcome State Fault Refusal :=
  .next (illFormed (encode (.reservedE arg)) s)

end Sys2Proof.Machine
end

