-- ==== Sys2Proof/Machine/Table.lean ====
section
/-! DEFINITION. The table commands CT_CLEAR, CT_OPEN, CT_BIT, CT_COMMIT (40_table_commands.md). -/

namespace Sys2Proof.Machine

/-- CT_CLEAR (R110, R115). -/
def execCtClear (s : State) : Host.Outcome State Fault Refusal :=
  .next <| guarded (encode .ctClear) (tablePhase s) (fun s => { s with ct := [], stg := none }) s

/-- CT_OPEN byte (R111, R115). -/
def execCtOpen (byte : Byte) (s : State) : Host.Outcome State Fault Refusal :=
  .next <| guarded (encode (.ctOpen byte)) (tablePhase s && !stgOpen s)
    (fun s => { s with stg := some ⟨byte, []⟩ }) s

/-- The own rule of CT_BIT b (R112): E_PATHLEN on a path that has MAXLEN bits, else append the bit. It is
run with the staging register open. -/
def stageBit (w : CmdWord) (b : Bool) (s : State) : State :=
  match s.stg with
  | none => s
  | some r =>
    if Config.maxLen ≤ r.path.length then raiseFault .pathLen w s
    else { s with stg := some ⟨r.sym, r.path ++ [b]⟩ }

/-- CT_BIT b (R112, R115). -/
def execCtBit (b : Bool) (s : State) : Host.Outcome State Fault Refusal :=
  .next <| guarded (encode (.ctBit b)) (tablePhase s && stgOpen s) (stageBit (encode (.ctBit b)) b) s

/-- The own rule of CT_COMMIT (R113): the three checks in their order, else write the entry and close the
staging register. It is run with the staging register open. -/
def commitStaged (w : CmdWord) (s : State) : State :=
  match s.stg with
  | none => s
  | some r =>
    if r.path.length = 0 then raiseFault .emptyPath w s
    else if (ctRead s r.sym).isSome then raiseFault .dupSym w s
    else if s.ct.any (fun e => conflict e.2 r.path) then raiseFault .conflict w s
    else { s with ct := s.ct.write r.sym.toNat r.path, stg := none }

/-- CT_COMMIT (R113, R115). -/
def execCtCommit (s : State) : Host.Outcome State Fault Refusal :=
  .next <| guarded (encode .ctCommit) (tablePhase s && stgOpen s) (commitStaged (encode .ctCommit)) s

end Sys2Proof.Machine
end

