-- ==== Sys2Proof/Machine/Dispatch.lean ====
section
/-! DEFINITION. The meaning of each command: one arm per constructor of Instr. -/

namespace Sys2Proof.Machine

def exec (i : Instr) (s : State) : Host.Outcome State Fault Refusal :=
  match i with
  | .nop => Sys2Proof.Machine.execNop s
  | .ctClear => Sys2Proof.Machine.execCtClear s
  | .ctOpen byte => Sys2Proof.Machine.execCtOpen byte s
  | .ctBit b => Sys2Proof.Machine.execCtBit b s
  | .ctCommit => Sys2Proof.Machine.execCtCommit s
  | .encStart => Sys2Proof.Machine.execEncStart s
  | .encHdrb byte => Sys2Proof.Machine.execEncHdrb byte s
  | .encHdrend => Sys2Proof.Machine.execEncHdrend s
  | .encSym byte => Sys2Proof.Machine.execEncSym byte s
  | .encEnd => Sys2Proof.Machine.execEncEnd s
  | .decStart => Sys2Proof.Machine.execDecStart s
  | .decByte data => Sys2Proof.Machine.execDecByte data s
  | .decByteLast nvalid data => Sys2Proof.Machine.execDecByteLast nvalid data s
  | .decEnd => Sys2Proof.Machine.execDecEnd s
  | .reservedD arg => Sys2Proof.Machine.execReservedD arg s
  | .reservedE arg => Sys2Proof.Machine.execReservedE arg s
  | .abort => Sys2Proof.Machine.execAbort s

end Sys2Proof.Machine
end

