-- ==== Sys2Proof/Machine/Input.lean ====
section
/-! DEFINITION. What the block does with one host input: a command word, or reset (10_state.md R33,
30_encoding.md R88, 70_reset_and_hazards.md R230). -/

namespace Sys2Proof.Machine

/-- Execute the command word w: a word that decodes runs as its instruction, any other is ill-formed
(R80, R86, R88). -/
def runWord (w : CmdWord) (s : State) : Host.Outcome State Fault Refusal :=
  match decode w with
  | .ok i => exec i s
  | .error _ => .next (illFormed w s)

/-- The trace now, of which only the first n of the bytes after the trace before were delivered. -/
def deliveredOnly (before now : List Byte) (n : Nat) : List Byte :=
  before ++ (now.drop before.length).take n

/-- Reset during a command that would have led from s to t, after n of its bytes were delivered: those stay,
the others are lost, and every element takes its reset value (R32, R230). -/
def cutShort (n : Nat) (s t : State) : State :=
  clearAll { t with
    eout := deliveredOnly s.eout t.eout n
    dhdr := deliveredOnly s.dhdr t.dhdr n
    dsym := deliveredOnly s.dsym t.dsym n }

/-- The effect of one host input. -/
def takeInput (x : Input) (s : State) : Host.Outcome State Fault Refusal :=
  match x with
  | .word w => runWord w s
  | .reset => .next (clearAll s)
  | .resetDuring w n =>
    match runWord w s with
    | .next t => .next (cutShort n s t)
    | .fault r => .fault r
    | .refused r => .refused r

/-- The next host input, and the state without it. -/
def fetchInput (s : State) : Option (Input × State) :=
  match s.input with
  | [] => none
  | x :: rest => some (x, { s with input := rest })

/-- Present the word with those bits as the next input, before those that wait (log entry 2). -/
def presentWord (nbits w : Nat) (s : State) : State :=
  { s with input := .word (BitVec.ofNat 16 (w % 2 ^ nbits)) :: s.input }

end Sys2Proof.Machine
end

