-- ==== Sys2Proof/Machine/Step.lean ====
section
/-! DEFINITION. One step of the machine: take the next host input, or wait where there is none (R9, R230). -/

namespace Sys2Proof.Machine

/-- One step. With no input presented the block waits, unchanged (R230). -/
def step (s : State) : Host.Outcome State Fault Refusal :=
  match fetchInput s with
  | none => .next s
  | some (x, t) => takeInput x t

/-- s with that command word presented next on the command port. -/
def State.withFetchWord (s : State) (nbits w : Nat) : State := presentWord nbits w s

end Sys2Proof.Machine
end

