-- ==== Sys2Proof/Safety.lean ====
section
/-! DEFINITION. The terms of claims: the invariants the spec gives, reachable states, runs of commands,
sessions, and the views of the streams that rules R136, R159, R160 and R161 speak of. -/

namespace Sys2Proof.Machine

/-! Invariants. Each holds at reset and is kept by every step. -/

/-- FCODE is 0 exactly when PHASE is not FAULT, and FINFO is 0 exactly then (10_state.md R22, R23). -/
abbrev State.faultOk (s : State) : Prop :=
  (s.fcode = .noFault ↔ s.phase ≠ .fault) ∧ (s.fcode = .noFault ↔ s.finfo = 0#16)

/-- The table: canonical form, paths of 1..255 bits, and no path a prefix of another's (R26). -/
abbrev tableOk (m : Memory) : Prop :=
  m.wf ∧ m.Pairwise fun x y => ¬ x.2 <+: y.2 ∧ ¬ y.2 <+: x.2

/-- The staging register: at most 255 bits, and closed in the payload phases (R20, R27). -/
abbrev State.stgOk (s : State) : Prop :=
  (s.stg.elim 0 fun r => r.path.length) ≤ 255 ∧
    (s.phase = .encPay ∨ s.phase = .decPay → s.stg = none)

/-- The packer: only the top PK_CNT bits of PK_BYTE can be set, and it is empty outside ENC_PAY (R28), but for
phase FAULT, where R197 keeps the bits that waited (log entry 4). -/
abbrev State.packOk (s : State) : Prop :=
  (∀ k < 8 - s.pkCnt.toNat, s.pkByte.getLsbD k = false) ∧
    (s.phase ≠ .encPay → s.phase ≠ .fault → s.pkCnt = 0#3 ∧ s.pkByte = 0#8)

/-- The accumulator: at most 255 bits; full when ACC_OVF is set; empty outside DEC_PAY and FAULT; and in
DEC_PAY with ACC_OVF = 0 no valid path is a prefix of it, itself included (R29). -/
abbrev State.accOk (s : State) : Prop :=
  s.acc.length ≤ 255 ∧ (s.accOvf = true → s.acc.length = 255) ∧
    (s.phase ≠ .decPay → s.phase ≠ .fault → s.acc = [] ∧ s.accOvf = false) ∧
    (s.phase = .decPay → s.accOvf = false → ∀ e ∈ s.ct, ¬ e.2 <+: s.acc)

/-- All of them together. -/
abbrev State.Inv (s : State) : Prop :=
  s.faultOk ∧ tableOk s.ct ∧ s.stgOk ∧ s.packOk ∧ s.accOk

/-- The states of runs: reset, with any list of host inputs to come, and what steps make of it (R9). -/
inductive Reachable : State → Prop where
  | start (inputs : List Input) : Reachable { State.reset with input := inputs }
  | step (s t : State) : Reachable s → Machine.step s = .next t → Reachable t

/-! Runs of commands. -/

/-- Execute commands one after the other. -/
def execList : List Instr → State → Host.Outcome State Fault Refusal
  | [], s => .next s
  | i :: is, s =>
    match exec i s with
    | .next t => execList is t
    | .fault r => .fault r
    | .refused r => .refused r

/-- Every word from lo to hi raises E_ILLCMD, or is ignored in phase FAULT (R86). -/
def illCmdOn (lo hi : Nat) : Prop :=
  ∀ (w : CmdWord) (s : State), lo ≤ w.toNat → w.toNat ≤ hi →
    runWord w s = .next (if s.phase = .fault then s else raiseFault .illCmd w s)

/-- The table commands and NOP: what a session may interleave (R136). -/
def tableOrNop : Instr → Bool
  | .nop | .ctClear | .ctOpen _ | .ctBit _ | .ctCommit => true
  | .encStart | .encHdrb _ | .encHdrend | .encSym _ | .encEnd | .decStart | .decByte _ | .decByteLast _ _
  | .decEnd | .reservedD _ | .reservedE _ | .abort => false

/-- CT_LOAD s, p (30_encoding.md R90). -/
def loadRecord (r : Byte × Bits) : List Instr :=
  .ctOpen r.1 :: (r.2.map Instr.ctBit ++ [.ctCommit])

/-- One CT_LOAD per record (R93). -/
def loadTable (rs : List (Byte × Bits)) : List Instr := rs.flatMap loadRecord

/-- An encode session of that header text and those symbols, with table commands and NOPs between its commands
(R136). -/
def encodeSession (hdr syms : List Byte) (cmds : List Instr) : Prop :=
  cmds.filter (fun i => !tableOrNop i) =
      .encStart :: (hdr.map Instr.encHdrb ++ .encHdrend :: (syms.map Instr.encSym ++ [.encEnd])) ∧
    cmds.head? = some .encStart ∧ cmds.getLast? = some .encEnd

/-- The records load without a fault on top of the table m: symbols new and distinct, paths of 1..255 bits, and
no path a prefix of another's (R116). -/
def loadable (m : Memory) (rs : List (Byte × Bits)) : Prop :=
  (∀ r ∈ rs, 1 ≤ r.2.length ∧ r.2.length ≤ 255 ∧ m.read r.1.toNat = none ∧
      ∀ a p, m.read a = some p → ¬ p <+: r.2 ∧ ¬ r.2 <+: p) ∧
    rs.Pairwise fun x y => x.1 ≠ y.1 ∧ ¬ x.2 <+: y.2 ∧ ¬ y.2 <+: x.2

/-- What a DEC_BYTE that feeds at most n bits leaves unchanged from s to t (R151, R152). -/
def decoderFrame (n : Nat) (s t : State) : Prop :=
  t.tailBits = s.tailBits ∧ t.ct = s.ct ∧ t.stg = s.stg ∧ t.pkByte = s.pkByte ∧ t.pkCnt = s.pkCnt ∧
    t.eout = s.eout ∧ t.input = s.input ∧ (t.phase ≠ .fault → t.fcode = s.fcode ∧ t.finfo = s.finfo) ∧
    ∃ hs ds : List Byte, t.dhdr = s.dhdr ++ hs ∧ t.dsym = s.dsym ++ ds ∧ hs.length ≤ 1 ∧ ds.length ≤ n ∧
      (hs = [] ∨ ds = [])

/-! The two tables of 43_system_commands.md. -/

/-- A cell of the legality matrix (R184): ok, with no condition or with STG_OPEN = 0 or 1; SEQ; HDREND; ign. -/
inductive Cell where
  | ok | okClosed | okOpen | seq | hdrEnd | ign
  deriving DecidableEq, Repr

/-- A row of the matrix from its seven cells, in the order of its columns. -/
def matrixRow (idle encHdr encPay decHdr decTbl decPay fault : Cell) : Phase → Cell
  | .idle => idle
  | .encHdr => encHdr
  | .encPay => encPay
  | .decHdr => decHdr
  | .decTbl => decTbl
  | .decPay => decPay
  | .fault => fault

/-- The legality matrix (R184). The reserved opcodes are no commands and have no row of their own: none marks
them. -/
def matrixCell : Instr → Option (Phase → Cell)
  | .nop => some (matrixRow .ok .ok .ok .ok .ok .ok .ign)
  | .ctClear => some (matrixRow .ok .ok .seq .ok .ok .seq .ign)
  | .ctOpen _ => some (matrixRow .okClosed .okClosed .seq .okClosed .okClosed .seq .ign)
  | .ctBit _ => some (matrixRow .okOpen .okOpen .seq .okOpen .okOpen .seq .ign)
  | .ctCommit => some (matrixRow .okOpen .okOpen .seq .okOpen .okOpen .seq .ign)
  | .encStart => some (matrixRow .ok .seq .seq .seq .seq .seq .ign)
  | .encHdrb _ => some (matrixRow .seq .ok .seq .seq .seq .seq .ign)
  | .encHdrend => some (matrixRow .seq .okClosed .seq .seq .seq .seq .ign)
  | .encSym _ => some (matrixRow .seq .seq .ok .seq .seq .seq .ign)
  | .encEnd => some (matrixRow .seq .seq .ok .seq .seq .seq .ign)
  | .decStart => some (matrixRow .ok .seq .seq .seq .seq .seq .ign)
  | .decByte _ => some (matrixRow .seq .seq .seq .ok .okClosed .ok .ign)
  | .decByteLast _ data =>
    some (matrixRow .seq .seq .seq (if data = 0x0A#8 then .ok else .hdrEnd) .okClosed .ok .ign)
  | .decEnd => some (matrixRow .seq .seq .seq .hdrEnd .okClosed .ok .ign)
  | .abort => some (matrixRow .ok .ok .ok .ok .ok .ok .ok)
  | .reservedD _ | .reservedE _ => none

/-- Where a command that does not fault leads from each phase (R183); what the table does not list leaves PHASE
as it is. -/
def phaseAfter (i : Instr) (p : Phase) : Phase :=
  match i, p with
  | .encStart, .idle => .encHdr
  | .encHdrend, .encHdr => .encPay
  | .encEnd, .encPay => .idle
  | .decStart, .idle => .decHdr
  | .decByte data, .decHdr => if data = 0x0A#8 then .decTbl else .decHdr
  | .decByteLast _ _, .decHdr => .idle
  | .decByte _, .decTbl => .decPay
  | .decByteLast _ _, .decTbl => .idle
  | .decEnd, .decTbl => .idle
  | .decByteLast _ _, .decPay => .idle
  | .decEnd, .decPay => .idle
  | .abort, _ => .idle
  | _, p => p

/-! Streams. -/

/-- The first n bits of a payload byte, most significant first (20_memory.md R56). -/
def topBits (n : Nat) (b : Byte) : Bits := (List.range n).map fun k => b.getLsbD (7 - k)

/-- The bits of a list of full payload bytes. -/
def streamBits (bs : List Byte) : Bits := bs.flatMap (topBits 8)

/-- The bits that wait in the packer. -/
def waitingBits (s : State) : Bits := topBits s.pkCnt.toNat s.pkByte

/-- The concatenated paths of a list of symbols (R136). -/
def codeBits (m : Memory) (syms : List Byte) : Bits :=
  syms.flatMap fun x => (m.read x.toNat).getD []

/-- The commands that present the payload bytes ys of a file whose last byte has tail meaningful bits (8 when
tail is 0), with DEC_END when there is no payload byte (R16, R161). -/
def presentPayload (ys : List Byte) (tail : Nat) : List Instr :=
  match ys.getLast? with
  | none => [.decEnd]
  | some y =>
    ys.dropLast.map Instr.decByte ++ [.decByteLast (BitVec.ofNat 4 (if tail = 0 then 8 else tail)) y]

/-- The source's decoder: an accumulating bit string without bound, checked against the table after each bit
(R159). It answers the symbols emitted and the string left over. -/
def unboundedDecode (m : Memory) : Bits → Bits → List Byte × Bits
  | acc, [] => ([], acc)
  | acc, b :: bs =>
    match m.find (acc ++ [b]) with
    | [a] => ((BitVec.ofNat 8 a) :: (unboundedDecode m [] bs).1, (unboundedDecode m [] bs).2)
    | _ => unboundedDecode m (acc ++ [b]) bs

/-- The prefix-tree walk (R160). The node is the bits from the root to it, and none is the dead state of a
missing child. It answers the symbols emitted and the node it ends in. -/
def treeWalk (m : Memory) : Option Bits → Bits → List Byte × Option Bits
  | node, [] => ([], node)
  | none, _ :: _ => ([], none)
  | some p, b :: bs =>
    match m.find? (fun e => e.2 == p ++ [b]) with
    | some e => ((BitVec.ofNat 8 e.1) :: (treeWalk m (some []) bs).1, (treeWalk m (some []) bs).2)
    | none =>
      if m.any (fun e => (p ++ [b]).isPrefixOf e.2) then treeWalk m (some (p ++ [b])) bs
      else treeWalk m none bs

end Sys2Proof.Machine
end

