-- ==== Sys2Proof/Certificates/Slice0/Obligations.lean ====
section
/-! DEFINITION. The statements for the provers, rule by rule. The inputs to come that a state holds are the model's own
field (log entry 1): a statement that names them says which word or reset a step took. -/

open Sys2Proof Sys2Proof.Machine

/-! Encoding (30_encoding.md). -/

/-- One word of each family, and the three worked examples of R89 with operands, decode to their commands. -/
def Obligations.SampleWordsDecode : Prop :=
  decode 0x0000#16 = .ok .nop ∧ decode 0x2061#16 = .ok (.ctOpen 0x61#8) ∧ decode 0x3001#16 = .ok (.ctBit true) ∧
    decode 0x8062#16 = .ok (.encSym 0x62#8) ∧ decode 0xB75A#16 = .ok (.decByte 0x5A#8) ∧
    decode 0xBED6#16 = .ok (.decByteLast 7#4 0xD6#8) ∧ decode 0xBB10#16 = .ok (.decByteLast 4#4 0x10#8) ∧
    decode 0xF000#16 = .ok .abort

/-- Decoding the word of a well-formed command gives the command back. -/
def Obligations.DecodeOfEncodeIsTheCommand : Prop :=
  ∀ i : Instr, i.wf = true → decode (encode i) = .ok i

/-- A word that decodes is the word of what it decodes to, and that is well-formed: no word has two readings and
no bit of it is dropped. -/
def Obligations.EncodeOfDecodeIsTheWord : Prop :=
  ∀ (w : CmdWord) (i : Instr), decode w = .ok i → encode i = w ∧ i.wf = true

/-- Every row of spec/opcode_table.json, by its mask and match, decodes to its command with its fields. -/
def Obligations.OpcodeTableRowsDecode : Prop :=
  ∀ w : CmdWord,
    (w = 0x0000#16 → decode w = .ok .nop) ∧
    (w = 0x1000#16 → decode w = .ok .ctClear) ∧
    (w &&& 0xFF00#16 = 0x2000#16 → decode w = .ok (.ctOpen (w.truncate 8))) ∧
    (w &&& 0xFFFE#16 = 0x3000#16 → decode w = .ok (.ctBit (w.getLsbD 0))) ∧
    (w = 0x4000#16 → decode w = .ok .ctCommit) ∧
    (w = 0x5000#16 → decode w = .ok .encStart) ∧
    (w &&& 0xFF00#16 = 0x6000#16 → decode w = .ok (.encHdrb (w.truncate 8))) ∧
    (w = 0x7000#16 → decode w = .ok .encHdrend) ∧
    (w &&& 0xFF00#16 = 0x8000#16 → decode w = .ok (.encSym (w.truncate 8))) ∧
    (w = 0x9000#16 → decode w = .ok .encEnd) ∧
    (w = 0xA000#16 → decode w = .ok .decStart) ∧
    (w &&& 0xFF00#16 = 0xB700#16 → decode w = .ok (.decByte (w.truncate 8))) ∧
    (w &&& 0xF800#16 = 0xB800#16 →
      decode w = .ok (.decByteLast (((w >>> 8) &&& 7#16).truncate 4 + 1#4) (w.truncate 8))) ∧
    (w = 0xC000#16 → decode w = .ok .decEnd) ∧
    (w &&& 0xF000#16 = 0xD000#16 → decode w = .ok (.reservedD (w.truncate 12))) ∧
    (w &&& 0xF000#16 = 0xE000#16 → decode w = .ok (.reservedE (w.truncate 12))) ∧
    (w = 0xF000#16 → decode w = .ok .abort)

/-- The well-formed words are the words and ranges that R85 lists. -/
def Obligations.WellFormedWordsAreTheListedOnes : Prop :=
  ∀ w : CmdWord, wellFormedWord w = true ↔
    w.toNat ∈ [0x0000, 0x1000, 0x3000, 0x3001, 0x4000, 0x5000, 0x7000, 0x9000, 0xA000, 0xC000, 0xF000] ∨
      (0x2000 ≤ w.toNat ∧ w.toNat ≤ 0x20FF) ∨ (0x6000 ≤ w.toNat ∧ w.toNat ≤ 0x60FF) ∨
      (0x8000 ≤ w.toNat ∧ w.toNat ≤ 0x80FF) ∨ (0xB700 ≤ w.toNat ∧ w.toNat ≤ 0xB7FF) ∨
      (0xB800 ≤ w.toNat ∧ w.toNat ≤ 0xBFFF)

/-- R86, R191: which words are ill-formed, bit by bit; executing one raises E_ILLCMD with FINFO the word outside
phase FAULT, changing nothing else, and is ignored in it. -/
def Obligations.IllFormedWordsRaiseIllCmd : Prop :=
  (∀ w : CmdWord, wellFormedWord w = false ↔
    w.extractLsb' 12 4 ∈ [0xD#4, 0xE#4] ∨
    (w.extractLsb' 12 4 ∈ [0x0#4, 0x1#4, 0x4#4, 0x5#4, 0x7#4, 0x9#4, 0xA#4, 0xC#4, 0xF#4] ∧
      ∃ k < 12, w.getLsbD k = true) ∨
    (w.extractLsb' 12 4 ∈ [0x2#4, 0x6#4, 0x8#4] ∧ ∃ k, 8 ≤ k ∧ k < 12 ∧ w.getLsbD k = true) ∨
    (w.extractLsb' 12 4 = 0x3#4 ∧ ∃ k, 1 ≤ k ∧ k < 12 ∧ w.getLsbD k = true) ∨
    (w.extractLsb' 12 4 = 0xB#4 ∧ w.getLsbD 11 = false ∧ w.extractLsb' 8 3 ≠ 7#3)) ∧
  (∀ (w : CmdWord) (s : State), wellFormedWord w = false → s.phase ≠ .fault →
    runWord w s = .next { s with fcode := .illCmd, finfo := w, phase := .fault }) ∧
  (∀ (w : CmdWord) (s : State), wellFormedWord w = false → s.phase = .fault → runWord w s = .next s)

/-- R182: a word of opcode 0xD or 0xE raises E_ILLCMD with FINFO the word outside phase FAULT and is ignored in
it. -/
def Obligations.ReservedOpcodesRaiseIllCmd : Prop :=
  ∀ (arg : BitVec 12) (s : State),
    (s.phase ≠ .fault →
      exec (.reservedD arg) s = .next { s with fcode := .illCmd, finfo := 0xD#4 ++ arg, phase := .fault } ∧
      exec (.reservedE arg) s = .next { s with fcode := .illCmd, finfo := 0xE#4 ++ arg, phase := .fault }) ∧
    (s.phase = .fault → exec (.reservedD arg) s = .next s ∧ exec (.reservedE arg) s = .next s) ∧
    illCmdOn 0xD000 0xEFFF

/-! The step, reset, and what the host sees. -/

/-- A step takes the next input: a word that decodes runs as its instruction in the state without that input; a
word that does not is ill-formed; with no input the block waits, unchanged; a presented word is taken by the very
next step. -/
def Obligations.StepRunsTheDecodedWord : Prop :=
  (∀ (s : State) (w : CmdWord) (rest : List Input) (i : Instr), s.input = .word w :: rest → decode w = .ok i →
    step s = exec i { s with input := rest }) ∧
  (∀ (s : State) (w : CmdWord) (rest : List Input) (e : Reject), s.input = .word w :: rest →
    decode w = .error e → step s = .next (illFormed w { s with input := rest })) ∧
  (∀ s : State, s.input = [] → step s = .next s) ∧
  (∀ (s : State) (w : CmdWord), step (s.withFetchWord 16 w.toNat) = runWord w s)

/-- Every command, in every state, answers a next state, and so does every step: nothing stops the machine. -/
def Obligations.EveryStepAnswersANextState : Prop :=
  (∀ (i : Instr) (s : State), ∃ t, exec i s = .next t) ∧
  (∀ (w : CmdWord) (s : State), ∃ t, runWord w s = .next t) ∧
  (∀ s : State, ∃ t, step s = .next t)

/-- R38: what reset leaves; every entry of the table reads as invalid. -/
def Obligations.ResetLeavesTheResetValues : Prop :=
  State.reset.phase = .idle ∧ State.reset.fcode = .noFault ∧ State.reset.finfo = 0#16 ∧
    State.reset.tailBits = 0#3 ∧ (∀ a : Nat, State.reset.ct.read a = none) ∧ stgOpen State.reset = false ∧
    State.reset.pkByte = 0#8 ∧ State.reset.pkCnt = 0#3 ∧ State.reset.acc = [] ∧ State.reset.accOvf = false

/-- R230: reset, between commands or in the middle of one, gives every element its reset value; STATUS reads 0 and
fault is 0; bytes delivered before it stay, and of a command cut short only the first n bytes are there. After reset
the block waits for a word. That reset is an input, and counts bytes, is the model's choice (log entry 7). -/
def Obligations.ResetInputClearsAllButTheTraces : Prop :=
  (∀ (s : State) (rest : List Input), s.input = .reset :: rest →
    step s = .next { State.reset with eout := s.eout, dhdr := s.dhdr, dsym := s.dsym, input := rest }) ∧
  (∀ (s t : State) (rest : List Input) (w : CmdWord) (n : Nat) (es hs ds : List Byte),
    s.input = .resetDuring w n :: rest → runWord w { s with input := rest } = .next t →
    t.eout = s.eout ++ es → t.dhdr = s.dhdr ++ hs → t.dsym = s.dsym ++ ds →
    step s = .next { State.reset with
      eout := s.eout ++ es.take n, dhdr := s.dhdr ++ hs.take n, dsym := s.dsym ++ ds.take n, input := rest }) ∧
  (∀ (es hs ds : List Byte) (inp : List Input),
    status { State.reset with eout := es, dhdr := hs, dsym := ds, input := inp } = 0#32 ∧
    faultLine { State.reset with eout := es, dhdr := hs, dsym := ds, input := inp } = false) ∧
  (∀ es hs ds : List Byte,
    step { State.reset with eout := es, dhdr := hs, dsym := ds } =
      .next { State.reset with eout := es, dhdr := hs, dsym := ds })

/-- R30: the fields of STATUS, bit by bit, with the values of R21 and R190. -/
def Obligations.StatusWordFields : Prop :=
  (∀ s : State,
    (status s).extractLsb' 0 3 =
      (match s.phase with
        | .idle => 0#3 | .encHdr => 1#3 | .encPay => 2#3 | .decHdr => 3#3 | .decTbl => 4#3 | .decPay => 5#3
        | .fault => 7#3) ∧
    (status s).getLsbD 3 = s.stg.isSome ∧
    (status s).extractLsb' 4 4 =
      (match s.fcode with
        | .noFault => 0#4 | .illCmd => 1#4 | .seq => 2#4 | .pathLen => 3#4 | .emptyPath => 4#4 | .dupSym => 5#4
        | .conflict => 6#4 | .unenc => 7#4 | .premEnd => 8#4 | .hdrEnd => 9#4) ∧
    (status s).extractLsb' 8 3 = s.tailBits ∧ (status s).extractLsb' 11 5 = 0#5 ∧
    (status s).extractLsb' 16 16 = s.finfo) ∧
  status State.reset = 0#32

/-! Faults (60_exceptions.md). -/

/-- R202: the fault entry writes FCODE, FINFO and PHASE and nothing more, and the fault output goes to 1 with PHASE;
in every state that output is 1 exactly when PHASE = FAULT (R31, R207). -/
def Obligations.FaultEntryWritesThreeElements : Prop :=
  (∀ (f : FCode) (w : CmdWord) (s : State),
    raiseFault f w s = { s with fcode := f, finfo := w, phase := .fault } ∧ faultLine (raiseFault f w s) = true) ∧
  (∀ s : State, faultLine s = true ↔ s.phase = .fault)

/-- R204: in phase FAULT every word other than 0xF000 is taken and ignored. -/
def Obligations.FaultPhaseIgnoresAllButAbort : Prop :=
  (∀ (w : CmdWord) (s : State), s.phase = .fault → w ≠ 0xF000#16 → runWord w s = .next s) ∧
  (∀ (w : CmdWord) (s : State) (rest : List Input), s.phase = .fault → w ≠ 0xF000#16 →
    s.input = .word w :: rest → step s = .next { s with input := rest })

/-- R205: a step that leaves phase FAULT took ABORT or reset, and every element is then at its reset value. -/
def Obligations.OnlyAbortOrResetLeavesFault : Prop :=
  ∀ s t : State, s.phase = .fault → step s = .next t → t.phase ≠ .fault →
    (∃ x rest, s.input = x :: rest ∧ (x = .word 0xF000#16 ∨ x = .reset ∨ ∃ w n, x = .resetDuring w n)) ∧
    t = { State.reset with eout := t.eout, dhdr := t.dhdr, dsym := t.dsym, input := t.input }

/-- R203: a command that faults has changed nothing but the fault record, except DEC_BYTE with last = 1 that raises
E_PREMEND, whose bits have been fed; and no word after it has an effect until ABORT. -/
def Obligations.FaultsArePrecise : Prop :=
  (∀ (w : CmdWord) (s t : State), s.phase ≠ .fault → runWord w s = .next t → t.phase = .fault →
    t = { s with fcode := t.fcode, finfo := w, phase := .fault } ∨
    (t.fcode = .premEnd ∧ ∃ n data, decode w = .ok (.decByteLast n data) ∧ (s.phase = .decTbl ∨ s.phase = .decPay) ∧
      t = raiseFault .premEnd w (feedBits { s with phase := .decPay } (topBits n.toNat data)))) ∧
  (∀ s t : State, exec .decEnd s = .next t → t.fcode = .premEnd → s.fcode ≠ .premEnd →
    t = { s with fcode := .premEnd, finfo := 0xC000#16, phase := .fault }) ∧
  (∀ (w : CmdWord) (s : State), s.phase = .fault → w ≠ 0xF000#16 → runWord w s = .next s)

/-- R22, R23: in every reachable state FCODE is one of 1..9 in phase FAULT and 0 outside it, and FINFO is 0 exactly
while no fault is recorded; and a word that faults is what FINFO then holds, whole. -/
def Obligations.TheFaultingWordIsRecorded : Prop :=
  (∀ s : State, Reachable s → (s.fcode ≠ .noFault ↔ s.phase = .fault) ∧ (s.finfo = 0#16 ↔ s.fcode = .noFault) ∧
    (s.phase ≠ .fault → faultCode s.fcode = 0#4) ∧
    (s.phase = .fault → 1 ≤ (faultCode s.fcode).toNat ∧ (faultCode s.fcode).toNat ≤ 9)) ∧
  (∀ (s t : State) (w : CmdWord) (rest : List Input), s.input = .word w :: rest → s.phase ≠ .fault →
    step s = .next t → t.phase = .fault → t.finfo = w ∧ t.fcode ≠ .noFault)

/-! System commands (43_system_commands.md). -/

/-- R180: NOP changes nothing, in any phase; its words with an argument bit set are ill-formed. -/
def Obligations.NopChangesNothing : Prop :=
  (∀ s : State, exec .nop s = .next s) ∧ illCmdOn 0x0001 0x0FFF

/-- R181: ABORT, in any phase, returns every element to its reset value and withdraws nothing from the traces; its
words with an argument bit set are ill-formed. -/
def Obligations.AbortReturnsToReset : Prop :=
  (∀ s : State, exec .abort s =
    .next { State.reset with eout := s.eout, dhdr := s.dhdr, dsym := s.dsym, input := s.input }) ∧
  illCmdOn 0xF001 0xFFFF

/-- R183: PHASE after any command, ill-formed word or reset. -/
def Obligations.PhaseChangesAsTheTransitionTableSays : Prop :=
  (∀ (i : Instr) (s t : State), exec i s = .next t → t.phase ≠ .fault →
    t.phase = phaseAfter i s.phase ∧
      ((s.phase = .decTbl ∨ s.phase = .decPay) → t.phase = .idle → t.acc = [])) ∧
  (∀ (i : Instr) (s t : State), exec i s = .next t → t.phase = .fault →
    i ≠ .abort ∧ (s.phase = .fault ∨ (t.fcode ≠ .noFault ∧ t.finfo = encode i))) ∧
  (∀ (w : CmdWord) (e : Reject) (s t : State), decode w = .error e → runWord w s = .next t → t.phase = .fault) ∧
  (∀ s t : State, takeInput .reset s = .next t → t.phase = .idle)

/-- R184: each cell of the legality matrix. -/
def Obligations.LegalityMatrixHolds : Prop :=
  ∀ (i : Instr) (row : Phase → Cell) (s : State), matrixCell i = some row →
    let runs := ∃ t, exec i s = .next t ∧ (t.phase = .fault → t.fcode ≠ .seq ∧ t.fcode ≠ .hdrEnd)
    let outOfSequence := exec i s = .next (raiseFault .seq (encode i) s)
    match row s.phase with
    | .ok => runs
    | .okClosed => if s.stg = none then runs else outOfSequence
    | .okOpen => if s.stg = none then outOfSequence else runs
    | .seq => outOfSequence
    | .hdrEnd => exec i s = .next (raiseFault .hdrEnd (encode i) s)
    | .ign => exec i s = .next s

/-! Table commands (40_table_commands.md). -/

/-- R110: CT_CLEAR. -/
def Obligations.CtClearEmptiesTheTable : Prop :=
  (∀ s : State, s.phase ∈ [.idle, .encHdr, .decHdr, .decTbl] →
    exec .ctClear s = .next { s with ct := [], stg := none }) ∧
  (∀ a : Nat, Memory.read [] a = none) ∧
  (∀ s : State, s.phase ∈ [.encPay, .decPay] → exec .ctClear s = .next (raiseFault .seq 0x1000#16 s)) ∧
  (∀ s : State, s.phase = .fault → exec .ctClear s = .next s) ∧ illCmdOn 0x1001 0x1FFF

/-- R111: CT_OPEN. -/
def Obligations.CtOpenStartsARecord : Prop :=
  (∀ (s : State) (byte : Byte), s.phase ∈ [.idle, .encHdr, .decHdr, .decTbl] → s.stg = none →
    exec (.ctOpen byte) s = .next { s with stg := some ⟨byte, []⟩ }) ∧
  (∀ (s : State) (byte : Byte), s.phase ≠ .fault → s.phase ∈ [.encPay, .decPay] ∨ s.stg ≠ none →
    exec (.ctOpen byte) s = .next (raiseFault .seq (0x20#8 ++ byte) s)) ∧
  (∀ (s : State) (byte : Byte), s.phase = .fault → exec (.ctOpen byte) s = .next s) ∧ illCmdOn 0x2100 0x2FFF

/-- R112, R193: CT_BIT. The 255th bit of a record is accepted and the 256th faults. -/
def Obligations.CtBitAppendsOneBit : Prop :=
  (∀ (s : State) (b : Bool) (r : Staged), s.phase ∈ [.idle, .encHdr, .decHdr, .decTbl] → s.stg = some r →
    r.path.length < 255 → exec (.ctBit b) s = .next { s with stg := some ⟨r.sym, r.path ++ [b]⟩ }) ∧
  (∀ (s : State) (b : Bool) (r : Staged), s.phase ∈ [.idle, .encHdr, .decHdr, .decTbl] → s.stg = some r →
    r.path.length = 255 →
    exec (.ctBit b) s = .next (raiseFault .pathLen (0x3000#16 ||| (BitVec.ofBool b).zeroExtend 16) s)) ∧
  (∀ (s : State) (b : Bool), s.phase ≠ .fault → s.phase ∈ [.encPay, .decPay] ∨ s.stg = none →
    exec (.ctBit b) s = .next (raiseFault .seq (0x3000#16 ||| (BitVec.ofBool b).zeroExtend 16) s)) ∧
  (∀ (s : State) (b : Bool), s.phase = .fault → exec (.ctBit b) s = .next s) ∧ illCmdOn 0x3002 0x3FFF

/-- R113, R194, R195, R196: CT_COMMIT, its three checks in their order, and the entry it writes; every other entry
reads as before. -/
def Obligations.CtCommitChecksThenWrites : Prop :=
  (∀ (s : State) (r : Staged), s.phase ∈ [.idle, .encHdr, .decHdr, .decTbl] → s.stg = some r →
    (r.path = [] → exec .ctCommit s = .next (raiseFault .emptyPath 0x4000#16 s)) ∧
    (r.path ≠ [] → s.ct.read r.sym.toNat ≠ none →
      exec .ctCommit s = .next (raiseFault .dupSym 0x4000#16 s)) ∧
    (tableOk s.ct → r.path ≠ [] → s.ct.read r.sym.toNat = none →
      (∃ (sym : Byte) (p : Bits), s.ct.read sym.toNat = some p ∧ (p <+: r.path ∨ r.path <+: p)) →
      exec .ctCommit s = .next (raiseFault .conflict 0x4000#16 s)) ∧
    (tableOk s.ct → r.path ≠ [] → s.ct.read r.sym.toNat = none →
      (∀ (sym : Byte) (p : Bits), s.ct.read sym.toNat = some p → ¬ p <+: r.path ∧ ¬ r.path <+: p) →
      ∃ t, exec .ctCommit s = .next t ∧ t = { s with ct := t.ct, stg := none } ∧
        (r.path.length ≤ 255 → tableOk t.ct) ∧
        ∀ a : Nat, t.ct.read a = if a = r.sym.toNat then some r.path else s.ct.read a)) ∧
  (∀ s : State, s.phase ≠ .fault → s.phase ∈ [.encPay, .decPay] ∨ s.stg = none →
    exec .ctCommit s = .next (raiseFault .seq 0x4000#16 s)) ∧
  (∀ s : State, s.phase = .fault → exec .ctCommit s = .next s) ∧ illCmdOn 0x4001 0x4FFF

/-- R114: two paths conflict exactly when one is a prefix of the other, and conflict is symmetric. -/
def Obligations.ConflictMeansOneIsAPrefix : Prop :=
  ∀ p q : Bits, (conflict p q = true ↔ p <+: q ∨ q <+: p) ∧ conflict p q = conflict q p

/-- R51: CTMatch(p) holds exactly the symbols whose valid entry is p, and at most one where the table invariant
holds; CTRead answers what the entry holds. -/
def Obligations.CtMatchFindsTheOneSymbol : Prop :=
  ∀ (s : State) (p : Bits), tableOk s.ct →
    (∀ sym : Byte, sym ∈ ctMatch s p ↔ ctRead s sym = some p) ∧ (ctMatch s p).length ≤ 1

/-- R52: a step changes the table only by CT_COMMIT, which writes one entry whole where none was valid, or by
CT_CLEAR, ABORT and reset, which leave no valid entry. -/
def Obligations.TableWritesAreWhole : Prop :=
  ∀ s t : State, step s = .next t → t.ct ≠ s.ct →
    (∃ (rest : List Input) (r : Staged), s.input = .word 0x4000#16 :: rest ∧ s.stg = some r ∧
      s.ct.read r.sym.toNat = none ∧
      ∀ a : Nat, t.ct.read a = if a = r.sym.toNat then some r.path else s.ct.read a) ∨
    (t.ct = [] ∧ ∃ x rest, s.input = x :: rest ∧
      (x = .word 0x1000#16 ∨ x = .word 0xF000#16 ∨ x = .reset ∨ ∃ w n, x = .resetDuring w n))

/-- R116: any sequence of table commands leaves a prefix-free table of paths of 1 to 255 bits; a list of records
loads without a fault exactly when it is loadable on top of the table; loading it in any other order faults too, or
gives the same state. -/
def Obligations.LoadingOrderDoesNotMatter : Prop :=
  (∀ (s t : State) (cmds : List Instr), s.Inv → (∀ i ∈ cmds, tableOrNop i = true) → execList cmds s = .next t →
    tableOk t.ct) ∧
  (∀ (s : State) (rs rs' : List (Byte × Bits)), s.Inv → s.phase ∈ [.idle, .encHdr, .decHdr, .decTbl] →
    s.stg = none → rs.Perm rs' →
    ∃ t t', execList (loadTable rs) s = .next t ∧ execList (loadTable rs') s = .next t' ∧
      (t.phase ≠ .fault ↔ loadable s.ct rs) ∧ (t.phase = .fault ↔ t'.phase = .fault) ∧
      (t.phase ≠ .fault → t = t'))

/-! Encoder commands (41_encoder_commands.md). -/

/-- R130: ENC_START. -/
def Obligations.EncStartOpensASession : Prop :=
  (∀ s : State, s.phase = .idle →
    exec .encStart s = .next { s with phase := .encHdr, pkByte := 0#8, pkCnt := 0#3, tailBits := 0#3 }) ∧
  (∀ s : State, s.phase ≠ .idle → s.phase ≠ .fault →
    exec .encStart s = .next (raiseFault .seq 0x5000#16 s)) ∧
  (∀ s : State, s.phase = .fault → exec .encStart s = .next s) ∧ illCmdOn 0x5001 0x5FFF

/-- R131: ENC_HDRB. -/
def Obligations.EncHdrbCopiesTheByte : Prop :=
  (∀ (s : State) (byte : Byte), s.phase = .encHdr →
    exec (.encHdrb byte) s = .next { s with eout := s.eout ++ [byte] }) ∧
  (∀ (s : State) (byte : Byte), s.phase ≠ .encHdr → s.phase ≠ .fault →
    exec (.encHdrb byte) s = .next (raiseFault .seq (0x60#8 ++ byte) s)) ∧
  (∀ (s : State) (byte : Byte), s.phase = .fault → exec (.encHdrb byte) s = .next s) ∧ illCmdOn 0x6100 0x6FFF

/-- R132: ENC_HDREND. -/
def Obligations.EncHdrendWritesTheNewline : Prop :=
  (∀ s : State, s.phase = .encHdr → s.stg = none →
    exec .encHdrend s = .next { s with eout := s.eout ++ [0x0A#8], phase := .encPay }) ∧
  (∀ s : State, s.phase ≠ .fault → s.phase ≠ .encHdr ∨ s.stg ≠ none →
    exec .encHdrend s = .next (raiseFault .seq 0x7000#16 s)) ∧
  (∀ s : State, s.phase = .fault → exec .encHdrend s = .next s) ∧ illCmdOn 0x7001 0x7FFF

/-- R134: writeBit puts the bit at bit 7 - PK_CNT and leaves the other seven; the eighth bit completes the byte,
which is emitted at once, and empties the packer; the bits below the last one placed stay 0. -/
def Obligations.WriteBitPlacesTheNextBit : Prop :=
  ∀ (s : State) (b : Bool), ∃ x : Byte,
    x.getLsbD (7 - s.pkCnt.toNat) = b ∧
    (∀ k < 8, k ≠ 7 - s.pkCnt.toNat → x.getLsbD k = s.pkByte.getLsbD k) ∧
    (s.pkCnt = 7#3 → writeBit s b = { s with pkByte := 0#8, pkCnt := 0#3, eout := s.eout ++ [x] }) ∧
    (s.pkCnt ≠ 7#3 → writeBit s b = { s with pkByte := x, pkCnt := s.pkCnt + 1#3 }) ∧
    ((∀ k < 8 - s.pkCnt.toNat, s.pkByte.getLsbD k = false) →
      ∀ k < 8 - (writeBit s b).pkCnt.toNat, (writeBit s b).pkByte.getLsbD k = false)

/-- R133, R197: ENC_SYM. The bits on EOUT and in the packer afterwards are those before and then the path's, in path
order; it emits floor((PK_CNT + LEN) / 8) bytes and changes EOUT, PK_BYTE and PK_CNT only. -/
def Obligations.EncSymPacksThePath : Prop :=
  (∀ (s : State) (byte : Byte) (p : Bits), s.phase = .encPay → s.ct.read byte.toNat = some p →
    ∃ (t : State) (out : List Byte), exec (.encSym byte) s = .next t ∧
      t = { s with eout := s.eout ++ out, pkByte := t.pkByte, pkCnt := t.pkCnt } ∧
      streamBits out ++ waitingBits t = waitingBits s ++ p ∧
      out.length = (s.pkCnt.toNat + p.length) / 8 ∧ t.pkCnt.toNat = (s.pkCnt.toNat + p.length) % 8) ∧
  (∀ (s : State) (byte : Byte), s.phase = .encPay → s.ct.read byte.toNat = none →
    exec (.encSym byte) s = .next (raiseFault .unenc (0x80#8 ++ byte) s)) ∧
  (∀ (s : State) (byte : Byte), s.phase ≠ .encPay → s.phase ≠ .fault →
    exec (.encSym byte) s = .next (raiseFault .seq (0x80#8 ++ byte) s)) ∧
  (∀ (s : State) (byte : Byte), s.phase = .fault → exec (.encSym byte) s = .next s) ∧ illCmdOn 0x8100 0x8FFF

/-- R135: ENC_END. -/
def Obligations.EncEndFlushesThePacker : Prop :=
  (∀ s : State, s.phase = .encPay →
    exec .encEnd s = .next { s with
      tailBits := s.pkCnt, eout := s.eout ++ (if s.pkCnt = 0#3 then [] else [s.pkByte]),
      pkByte := 0#8, pkCnt := 0#3, phase := .idle }) ∧
  (∀ s : State, s.phase ≠ .encPay → s.phase ≠ .fault → exec .encEnd s = .next (raiseFault .seq 0x9000#16 s)) ∧
  (∀ s : State, s.phase = .fault → exec .encEnd s = .next s) ∧ illCmdOn 0x9001 0x9FFF

/-- R136: what a completed encode session wrote, from any idle state. The table it codes by is that at ENC_HDREND,
which is the table at its end. -/
def Obligations.EncodeSessionWritesTheFile : Prop :=
  ∀ (s t : State) (hdr syms : List Byte) (cmds : List Instr), s.phase = .idle → encodeSession hdr syms cmds →
    execList cmds s = .next t → t.phase ≠ .fault →
    t.phase = .idle ∧ (∀ x ∈ syms, t.ct.read x.toNat ≠ none) ∧
    (∀ (c₁ c₂ : List Instr) (m : State), cmds = c₁ ++ .encHdrend :: c₂ →
      execList (c₁ ++ [.encHdrend]) s = .next m → t.ct = m.ct) ∧
    ∃ payload : List Byte, t.eout = s.eout ++ hdr ++ [0x0A#8] ++ payload ∧
      payload.length = ((codeBits t.ct syms).length + 7) / 8 ∧
      (∀ j i : Nat, j < payload.length → i < 8 →
        (payload.getD j 0#8).getLsbD (7 - i) = (codeBits t.ct syms).getD (8 * j + i) false) ∧
      t.tailBits.toNat = (codeBits t.ct syms).length % 8

/-! Decoder commands (42_decoder_commands.md). -/

/-- R150: DEC_START. -/
def Obligations.DecStartOpensASession : Prop :=
  (∀ s : State, s.phase = .idle →
    exec .decStart s = .next { s with phase := .decHdr, acc := [], accOvf := false }) ∧
  (∀ s : State, s.phase ≠ .idle → s.phase ≠ .fault →
    exec .decStart s = .next (raiseFault .seq 0xA000#16 s)) ∧
  (∀ s : State, s.phase = .fault → exec .decStart s = .next s) ∧ illCmdOn 0xA001 0xAFFF

/-- R152, R199: DEC_BYTE in the header phase. nvalid is not used; a value of it that no word gives is the model's
(log entry 12). -/
def Obligations.DecByteDeliversTheHeader : Prop :=
  (∀ s : State, s.phase = .decHdr → exec (.decByte 0x0A#8) s = .next { s with phase := .decTbl }) ∧
  (∀ (s : State) (n : BitVec 4), s.phase = .decHdr →
    exec (.decByteLast n 0x0A#8) s = .next { s with phase := .idle }) ∧
  (∀ (s : State) (data : Byte), s.phase = .decHdr → data ≠ 0x0A#8 →
    exec (.decByte data) s = .next { s with dhdr := s.dhdr ++ [data] }) ∧
  (∀ (s : State) (n : BitVec 4) (data : Byte), s.phase = .decHdr → data ≠ 0x0A#8 →
    exec (.decByteLast n data) s =
      .next (raiseFault .hdrEnd (0xB#4 ++ 1#1 ++ (n - 1#4).truncate 3 ++ data) s)) ∧
  (∀ s : State, s.phase = .decHdr → exec .decEnd s = .next (raiseFault .hdrEnd 0xC000#16 s))

/-- R151, R153, R154: DEC_BYTE runs header_byte in the header phase; on a payload byte it feeds the meaningful bits,
most significant first, after DEC_TBL has become DEC_PAY, and with last = 1 the end of the bits completes the session
or raises E_PREMEND. -/
def Obligations.DecByteFeedsThePayload : Prop :=
  (∀ (s : State) (n : BitVec 4) (d : Byte), s.phase = .decHdr →
    exec (.decByte d) s = .next (headerByte (0xB7#8 ++ d) d false s) ∧
    exec (.decByteLast n d) s =
      .next (headerByte (0xB#4 ++ 1#1 ++ (n - 1#4).truncate 3 ++ d) d true s)) ∧
  (∀ (s : State) (d : Byte), s.phase = .decPay ∨ (s.phase = .decTbl ∧ s.stg = none) →
    exec (.decByte d) s = .next ([d.getLsbD 7, d.getLsbD 6, d.getLsbD 5, d.getLsbD 4, d.getLsbD 3, d.getLsbD 2,
      d.getLsbD 1, d.getLsbD 0].foldl feed { s with phase := .decPay })) ∧
  (∀ (s u : State) (n : BitVec 4) (d : Byte), s.phase = .decPay ∨ (s.phase = .decTbl ∧ s.stg = none) →
    1 ≤ n.toNat → n.toNat ≤ 8 →
    u = ((List.range n.toNat).map fun i => d.getLsbD (7 - i)).foldl feed { s with phase := .decPay } →
    (u.acc = [] → exec (.decByteLast n d) s = .next { u with phase := .idle }) ∧
    (u.acc ≠ [] → exec (.decByteLast n d) s =
      .next (raiseFault .premEnd (0xB#4 ++ 1#1 ++ (n - 1#4).truncate 3 ++ d) u))) ∧
  (∀ (s : State) (n : BitVec 4) (d : Byte),
    s.phase ∈ [.idle, .encHdr, .encPay] ∨ (s.phase = .decTbl ∧ s.stg ≠ none) →
    exec (.decByte d) s = .next (raiseFault .seq (0xB7#8 ++ d) s) ∧
    exec (.decByteLast n d) s = .next (raiseFault .seq (0xB#4 ++ 1#1 ++ (n - 1#4).truncate 3 ++ d) s)) ∧
  (∀ (s : State) (n : BitVec 4) (d : Byte), s.phase = .fault →
    exec (.decByte d) s = .next s ∧ exec (.decByteLast n d) s = .next s) ∧ illCmdOn 0xB000 0xB6FF

/-- The frame of DEC_BYTE: it changes PHASE, the accumulator, DHDR by at most one byte or DSYM by at most one byte
for each bit fed and, when it faults, the fault record; no table entry, staging, packer, TAILBITS or EOUT byte
changes. -/
def Obligations.DecByteFrame : Prop :=
  (∀ (s t : State) (d : Byte), exec (.decByte d) s = .next t → decoderFrame 8 s t) ∧
  (∀ (s t : State) (n : BitVec 4) (d : Byte), exec (.decByteLast n d) s = .next t → decoderFrame n.toNat s t)

/-- R155: feed, in a state whose table meets the table invariant. -/
def Obligations.FeedAccumulatesAndMatches : Prop :=
  ∀ (s : State) (b : Bool), tableOk s.ct →
    (s.accOvf = true → feed s b = s) ∧
    (s.accOvf = false → s.acc.length = 255 → feed s b = { s with accOvf := true }) ∧
    (∀ sym : Byte, s.accOvf = false → s.acc.length < 255 → s.ct.read sym.toNat = some (s.acc ++ [b]) →
      feed s b = { s with acc := [], dsym := s.dsym ++ [sym] }) ∧
    (s.accOvf = false → s.acc.length < 255 → (∀ sym : Byte, s.ct.read sym.toNat ≠ some (s.acc ++ [b])) →
      feed s b = { s with acc := s.acc ++ [b] })

/-- R157, R158: the end of bits, and DEC_END. -/
def Obligations.DecEndEndsTheBits : Prop :=
  (∀ (w : CmdWord) (s : State), s.acc ≠ [] →
    endOfBits w s = { s with fcode := .premEnd, finfo := w, phase := .fault }) ∧
  (∀ (w : CmdWord) (s : State), s.acc = [] → endOfBits w s = { s with phase := .idle }) ∧
  (∀ s : State, s.phase = .decPay ∨ (s.phase = .decTbl ∧ s.stg = none) → s.acc = [] →
    exec .decEnd s = .next { s with phase := .idle }) ∧
  (∀ s : State, s.phase = .decPay ∨ (s.phase = .decTbl ∧ s.stg = none) → s.acc ≠ [] →
    exec .decEnd s = .next (raiseFault .premEnd 0xC000#16 s)) ∧
  (∀ s : State, s.phase = .decHdr → exec .decEnd s = .next (raiseFault .hdrEnd 0xC000#16 s)) ∧
  (∀ s : State, s.phase ∈ [.idle, .encHdr, .encPay] ∨ (s.phase = .decTbl ∧ s.stg ≠ none) →
    exec .decEnd s = .next (raiseFault .seq 0xC000#16 s)) ∧
  (∀ s : State, s.phase = .fault → exec .decEnd s = .next s) ∧ illCmdOn 0xC001 0xCFFF

/-- Padding bits are not examined: two last bytes that agree in their meaningful bits do the same, but for the word
that a fault records. -/
def Obligations.PaddingBitsAreNotExamined : Prop :=
  ∀ (s t t' : State) (n : BitVec 4) (d d' : Byte), s.phase ≠ .decHdr → topBits n.toNat d = topBits n.toNat d' →
    exec (.decByteLast n d) s = .next t → exec (.decByteLast n d') s = .next t' →
    t' = { t with finfo := t'.finfo }

/-- R159: the bounded accumulator does what the source's unbounded string does: the same symbols, empty at the same
time, and overflowed exactly when the string is longer than 255 bits. Once it has overflowed every bit is dropped,
and the end of the bits is E_PREMEND. -/
def Obligations.AccumulatorRefinesTheUnboundedString : Prop :=
  (∀ (s : State) (bs : Bits), tableOk s.ct → s.accOvf = false → s.acc.length ≤ 255 →
    (feedBits s bs).dsym = s.dsym ++ (unboundedDecode s.ct s.acc bs).1 ∧
    ((feedBits s bs).acc = [] ↔ (unboundedDecode s.ct s.acc bs).2 = []) ∧
    ((feedBits s bs).accOvf = true ↔ 255 < (unboundedDecode s.ct s.acc bs).2.length) ∧
    ((feedBits s bs).accOvf = false → (feedBits s bs).acc = (unboundedDecode s.ct s.acc bs).2)) ∧
  (∀ (s : State) (bs : Bits) (w : CmdWord), s.accOvf = true → s.acc.length = 255 →
    feedBits s bs = s ∧ endOfBits w s = raiseFault .premEnd w s)

/-- R160: the walk of the prefix tree emits the same symbols and ends at the root exactly when the accumulator is
empty. -/
def Obligations.TreeWalkIsEquivalent : Prop :=
  ∀ (s : State) (bs : Bits), tableOk s.ct → s.accOvf = false → s.acc = [] →
    (feedBits s bs).dsym = s.dsym ++ (treeWalk s.ct (some []) bs).1 ∧
    ((feedBits s bs).acc = [] ↔ (treeWalk s.ct (some []) bs).2 = some [])

/-- R161, first half: what a decode session delivers. The payload is presented up to a byte with last = 1 and n
meaningful bits, or up to DEC_END. -/
def Obligations.DecodeSessionEmitsTheSymbols : Prop :=
  ∀ (s u : State) (hdr : List Byte) (tbl : List Instr), s.Inv → s.phase = .idle → 0x0A#8 ∉ hdr →
    (∀ i ∈ tbl, tableOrNop i = true) →
    execList (.decStart :: ((hdr ++ [0x0A#8]).map Instr.decByte ++ tbl)) s = .next u →
    u.phase = .decTbl → u.stg = none →
    u.dhdr = s.dhdr ++ hdr ∧ u.dsym = s.dsym ∧
    ∀ (ys : List Byte) (B : Bits) (last : Instr),
      (last = .decEnd ∧ B = streamBits ys) ∨
        (∃ (n : BitVec 4) (y : Byte), 1 ≤ n.toNat ∧ n.toNat ≤ 8 ∧ last = .decByteLast n y ∧
          B = streamBits ys ++ topBits n.toNat y) →
      ∃ t, execList (ys.map Instr.decByte ++ [last]) u = .next t ∧
        (∀ syms : List Byte, (∀ x ∈ syms, u.ct.read x.toNat ≠ none) → B = codeBits u.ct syms →
          t.phase = .idle ∧ t.dsym = s.dsym ++ syms) ∧
        ((∀ syms : List Byte, (∀ x ∈ syms, u.ct.read x.toNat ≠ none) → B ≠ codeBits u.ct syms) →
          t.phase = .fault ∧ t.fcode = .premEnd ∧
          ∃ (syms : List Byte) (rest : Bits), (∀ x ∈ syms, u.ct.read x.toNat ≠ none) ∧
            B = codeBits u.ct syms ++ rest ∧ t.dsym = s.dsym ++ syms ∧
            ∀ (syms' : List Byte) (rest' : Bits), (∀ x ∈ syms', u.ct.read x.toNat ≠ none) →
              B = codeBits u.ct syms' ++ rest' → (codeBits u.ct syms').length ≤ (codeBits u.ct syms).length)

/-- R161, second half: the round trip. The file of a completed encode session, presented to a decode session with
its tail count and the same table, gives back the header and the symbols. -/
def Obligations.EncodeThenDecodeRoundTrips : Prop :=
  ∀ (s₁ t₁ s₂ u : State) (hdr syms file : List Byte) (cmds tbl : List Instr),
    s₁.phase = .idle → encodeSession hdr syms cmds → execList cmds s₁ = .next t₁ → t₁.phase ≠ .fault →
    t₁.eout = s₁.eout ++ file → 0x0A#8 ∉ hdr →
    s₂.Inv → s₂.phase = .idle → (∀ i ∈ tbl, tableOrNop i = true) →
    execList (.decStart :: ((file.take (hdr.length + 1)).map Instr.decByte ++ tbl)) s₂ = .next u →
    u.phase = .decTbl → u.stg = none → u.ct = t₁.ct →
    ∃ t₂, execList (presentPayload (file.drop (hdr.length + 1)) t₁.tailBits.toNat) u = .next t₂ ∧
      t₂.phase = .idle ∧ t₂.dhdr = s₂.dhdr ++ hdr ∧ t₂.dsym = s₂.dsym ++ syms

/-! Rules about the whole machine. -/

/-- R63: while a payload is being coded no word but ABORT changes the table or opens a record; the four table
commands raise E_SEQ. -/
def Obligations.TableIsFrozenInPayloadPhases : Prop :=
  (∀ (w : CmdWord) (s t : State), s.phase = .encPay ∨ s.phase = .decPay → w ≠ 0xF000#16 →
    runWord w s = .next t → t.ct = s.ct ∧ t.stg = s.stg) ∧
  (∀ (i : Instr) (s : State), s.phase = .encPay ∨ s.phase = .decPay → tableOrNop i = true → i ≠ .nop →
    exec i s = .next (raiseFault .seq (encode i) s))

/-- R32: a step only appends to the three traces, whatever it takes; they are empty at the start of a run. -/
def Obligations.TracesOnlyGrow : Prop :=
  (∀ s t : State, step s = .next t → s.eout <+: t.eout ∧ s.dhdr <+: t.dhdr ∧ s.dsym <+: t.dsym) ∧
  State.reset.eout = [] ∧ State.reset.dhdr = [] ∧ State.reset.dsym = []

/-- R27: a record is staged from CT_OPEN to the CT_COMMIT, CT_CLEAR, ABORT or reset that closes it, and in a reachable
state never in a payload phase. -/
def Obligations.StagingOpensAndClosesByItsCommands : Prop :=
  (∀ s t : State, step s = .next t → s.stg = none → t.stg ≠ none →
    ∃ (byte : Byte) (rest : List Input), s.input = .word (0x20#8 ++ byte) :: rest ∧ t.stg = some ⟨byte, []⟩) ∧
  (∀ s t : State, step s = .next t → s.stg ≠ none → t.stg = none →
    ∃ x rest, s.input = x :: rest ∧ (x = .word 0x4000#16 ∨ x = .word 0x1000#16 ∨ x = .word 0xF000#16 ∨ x = .reset ∨
      ∃ w n, x = .resetDuring w n)) ∧
  (∀ s : State, Reachable s → s.phase = .encPay ∨ s.phase = .decPay → s.stg = none)

/-- The "written by" column of R20, and the ports of R31: the only commands that change each element and each
trace. No command changes the inputs to come. -/
def Obligations.EachElementIsWrittenByItsCommands : Prop :=
  ∀ (i : Instr) (s t : State), exec i s = .next t →
    (t.phase ≠ s.phase →
      i = .encStart ∨ i = .encHdrend ∨ i = .encEnd ∨ i = .decStart ∨ (∃ d, i = .decByte d) ∨
        (∃ n d, i = .decByteLast n d) ∨ i = .decEnd ∨ i = .abort ∨ t.phase = .fault) ∧
    (t.fcode ≠ s.fcode ∨ t.finfo ≠ s.finfo → i = .abort ∨ (s.phase ≠ .fault ∧ t.phase = .fault)) ∧
    (t.tailBits ≠ s.tailBits → i = .encStart ∨ i = .encEnd ∨ i = .abort) ∧
    (t.ct ≠ s.ct → i = .ctCommit ∨ i = .ctClear ∨ i = .abort) ∧
    (t.stg ≠ s.stg → (∃ byte, i = .ctOpen byte) ∨ (∃ b, i = .ctBit b) ∨ i = .ctCommit ∨ i = .ctClear ∨ i = .abort) ∧
    (t.pkByte ≠ s.pkByte ∨ t.pkCnt ≠ s.pkCnt →
      i = .encStart ∨ (∃ byte, i = .encSym byte) ∨ i = .encEnd ∨ i = .abort) ∧
    (t.acc ≠ s.acc ∨ t.accOvf ≠ s.accOvf →
      i = .decStart ∨ (∃ d, i = .decByte d) ∨ (∃ n d, i = .decByteLast n d) ∨ i = .abort) ∧
    (t.eout ≠ s.eout →
      (∃ byte, i = .encHdrb byte) ∨ i = .encHdrend ∨ (∃ byte, i = .encSym byte) ∨ i = .encEnd) ∧
    (t.dhdr ≠ s.dhdr → ∃ d, i = .decByte d) ∧
    (t.dsym ≠ s.dsym → (∃ d, i = .decByte d) ∨ ∃ n d, i = .decByteLast n d) ∧
    t.input = s.input

/-- The invariant of the fault record, the table, the staging register, the packer and the accumulator is kept by
every step from every state that meets it. That the packer's clause leaves out phase FAULT is the model's reading of R28
and R197 (log entry 4). -/
def Obligations.EveryStepKeepsTheInvariant : Prop :=
  ∀ s t : State, s.Inv → step s = .next t → t.Inv

/-- Reset meets the invariant, whatever the host presents next. -/
def Obligations.ResetMeetsTheInvariant : Prop :=
  ∀ inputs : List Input, State.Inv { State.reset with input := inputs }

/-- R26: in every reachable state each valid entry's path has 1 to 255 bits, and no path of a valid entry is a prefix
of another's. -/
def Obligations.ReachableTablesArePrefixFree : Prop :=
  ∀ s : State, Reachable s →
    (∀ (x : Byte) (p : Bits), s.ct.read x.toNat = some p → 1 ≤ p.length ∧ p.length ≤ 255) ∧
    (∀ (x y : Byte) (p q : Bits), x ≠ y → s.ct.read x.toNat = some p → s.ct.read y.toNat = some q →
      ¬ p <+: q ∧ ¬ q <+: p)

/-- R29: in every reachable state the accumulator meets its invariants. -/
def Obligations.ReachableAccumulatorsAreUnmatched : Prop :=
  ∀ s : State, Reachable s →
    s.acc.length ≤ 255 ∧ (s.accOvf = true → s.acc.length = 255) ∧
    (s.phase = .decHdr ∨ s.phase = .decTbl → s.acc = [] ∧ s.accOvf = false) ∧
    (s.phase = .decPay → s.accOvf = false →
      ∀ (x : Byte) (p : Bits), s.ct.read x.toNat = some p → p ≠ s.acc ∧ ¬ p <+: s.acc)

/-- R28, R197, R202: in every reachable state only the top PK_CNT bits of PK_BYTE can be set, and the packer is empty
outside ENC_PAY and FAULT. Bits wait in phase FAULT only where the fault was taken in ENC_PAY: a fault of another phase,
in a state that meets the invariant, leaves the packer empty, and in FAULT they stay until ABORT or reset. That R197 goes before R28's last words in phase
FAULT is the model's reading (log entry 4). -/
def Obligations.ReachablePackersHoldOnlyWaitingBits : Prop :=
  (∀ s : State, Reachable s →
    (∀ k < 8 - s.pkCnt.toNat, s.pkByte.getLsbD k = false) ∧
    (s.phase ≠ .encPay → s.phase ≠ .fault → s.pkCnt = 0#3 ∧ s.pkByte = 0#8)) ∧
  (∀ s t : State, s.Inv → s.phase ≠ .encPay → s.phase ≠ .fault → step s = .next t → t.phase = .fault →
    t.pkCnt = 0#3 ∧ t.pkByte = 0#8) ∧
  (∀ s t : State, s.phase = .fault → step s = .next t →
    if t.phase = .fault then t.pkCnt = s.pkCnt ∧ t.pkByte = s.pkByte else t.pkCnt = 0#3 ∧ t.pkByte = 0#8)
end

