-- ==== Sys2Proof/Laws/State.lean ====
section
/-! SUPPORT. One lemma per field per named update of the state. -/

namespace Sys2Proof.Machine

@[simp] theorem emitEout_phase (b : Byte) (s : State) : (emitEout b s).phase = s.phase := rfl
@[simp] theorem emitEout_fcode (b : Byte) (s : State) : (emitEout b s).fcode = s.fcode := rfl
@[simp] theorem emitEout_finfo (b : Byte) (s : State) : (emitEout b s).finfo = s.finfo := rfl
@[simp] theorem emitEout_tailBits (b : Byte) (s : State) : (emitEout b s).tailBits = s.tailBits := rfl
@[simp] theorem emitEout_ct (b : Byte) (s : State) : (emitEout b s).ct = s.ct := rfl
@[simp] theorem emitEout_stg (b : Byte) (s : State) : (emitEout b s).stg = s.stg := rfl
@[simp] theorem emitEout_pkByte (b : Byte) (s : State) : (emitEout b s).pkByte = s.pkByte := rfl
@[simp] theorem emitEout_pkCnt (b : Byte) (s : State) : (emitEout b s).pkCnt = s.pkCnt := rfl
@[simp] theorem emitEout_acc (b : Byte) (s : State) : (emitEout b s).acc = s.acc := rfl
@[simp] theorem emitEout_accOvf (b : Byte) (s : State) : (emitEout b s).accOvf = s.accOvf := rfl
@[simp] theorem emitEout_eout (b : Byte) (s : State) : (emitEout b s).eout = s.eout ++ [b] := rfl
@[simp] theorem emitEout_dhdr (b : Byte) (s : State) : (emitEout b s).dhdr = s.dhdr := rfl
@[simp] theorem emitEout_dsym (b : Byte) (s : State) : (emitEout b s).dsym = s.dsym := rfl
@[simp] theorem emitEout_input (b : Byte) (s : State) : (emitEout b s).input = s.input := rfl

@[simp] theorem emitDhdr_phase (b : Byte) (s : State) : (emitDhdr b s).phase = s.phase := rfl
@[simp] theorem emitDhdr_fcode (b : Byte) (s : State) : (emitDhdr b s).fcode = s.fcode := rfl
@[simp] theorem emitDhdr_finfo (b : Byte) (s : State) : (emitDhdr b s).finfo = s.finfo := rfl
@[simp] theorem emitDhdr_tailBits (b : Byte) (s : State) : (emitDhdr b s).tailBits = s.tailBits := rfl
@[simp] theorem emitDhdr_ct (b : Byte) (s : State) : (emitDhdr b s).ct = s.ct := rfl
@[simp] theorem emitDhdr_stg (b : Byte) (s : State) : (emitDhdr b s).stg = s.stg := rfl
@[simp] theorem emitDhdr_pkByte (b : Byte) (s : State) : (emitDhdr b s).pkByte = s.pkByte := rfl
@[simp] theorem emitDhdr_pkCnt (b : Byte) (s : State) : (emitDhdr b s).pkCnt = s.pkCnt := rfl
@[simp] theorem emitDhdr_acc (b : Byte) (s : State) : (emitDhdr b s).acc = s.acc := rfl
@[simp] theorem emitDhdr_accOvf (b : Byte) (s : State) : (emitDhdr b s).accOvf = s.accOvf := rfl
@[simp] theorem emitDhdr_eout (b : Byte) (s : State) : (emitDhdr b s).eout = s.eout := rfl
@[simp] theorem emitDhdr_dhdr (b : Byte) (s : State) : (emitDhdr b s).dhdr = s.dhdr ++ [b] := rfl
@[simp] theorem emitDhdr_dsym (b : Byte) (s : State) : (emitDhdr b s).dsym = s.dsym := rfl
@[simp] theorem emitDhdr_input (b : Byte) (s : State) : (emitDhdr b s).input = s.input := rfl

@[simp] theorem emitDsym_phase (b : Byte) (s : State) : (emitDsym b s).phase = s.phase := rfl
@[simp] theorem emitDsym_fcode (b : Byte) (s : State) : (emitDsym b s).fcode = s.fcode := rfl
@[simp] theorem emitDsym_finfo (b : Byte) (s : State) : (emitDsym b s).finfo = s.finfo := rfl
@[simp] theorem emitDsym_tailBits (b : Byte) (s : State) : (emitDsym b s).tailBits = s.tailBits := rfl
@[simp] theorem emitDsym_ct (b : Byte) (s : State) : (emitDsym b s).ct = s.ct := rfl
@[simp] theorem emitDsym_stg (b : Byte) (s : State) : (emitDsym b s).stg = s.stg := rfl
@[simp] theorem emitDsym_pkByte (b : Byte) (s : State) : (emitDsym b s).pkByte = s.pkByte := rfl
@[simp] theorem emitDsym_pkCnt (b : Byte) (s : State) : (emitDsym b s).pkCnt = s.pkCnt := rfl
@[simp] theorem emitDsym_acc (b : Byte) (s : State) : (emitDsym b s).acc = s.acc := rfl
@[simp] theorem emitDsym_accOvf (b : Byte) (s : State) : (emitDsym b s).accOvf = s.accOvf := rfl
@[simp] theorem emitDsym_eout (b : Byte) (s : State) : (emitDsym b s).eout = s.eout := rfl
@[simp] theorem emitDsym_dhdr (b : Byte) (s : State) : (emitDsym b s).dhdr = s.dhdr := rfl
@[simp] theorem emitDsym_dsym (b : Byte) (s : State) : (emitDsym b s).dsym = s.dsym ++ [b] := rfl
@[simp] theorem emitDsym_input (b : Byte) (s : State) : (emitDsym b s).input = s.input := rfl

@[simp] theorem raiseFault_phase (f : FCode) (w : CmdWord) (s : State) : (raiseFault f w s).phase = .fault := rfl
@[simp] theorem raiseFault_fcode (f : FCode) (w : CmdWord) (s : State) : (raiseFault f w s).fcode = f := rfl
@[simp] theorem raiseFault_finfo (f : FCode) (w : CmdWord) (s : State) : (raiseFault f w s).finfo = w := rfl
@[simp] theorem raiseFault_tailBits (f : FCode) (w : CmdWord) (s : State) : (raiseFault f w s).tailBits = s.tailBits := rfl
@[simp] theorem raiseFault_ct (f : FCode) (w : CmdWord) (s : State) : (raiseFault f w s).ct = s.ct := rfl
@[simp] theorem raiseFault_stg (f : FCode) (w : CmdWord) (s : State) : (raiseFault f w s).stg = s.stg := rfl
@[simp] theorem raiseFault_pkByte (f : FCode) (w : CmdWord) (s : State) : (raiseFault f w s).pkByte = s.pkByte := rfl
@[simp] theorem raiseFault_pkCnt (f : FCode) (w : CmdWord) (s : State) : (raiseFault f w s).pkCnt = s.pkCnt := rfl
@[simp] theorem raiseFault_acc (f : FCode) (w : CmdWord) (s : State) : (raiseFault f w s).acc = s.acc := rfl
@[simp] theorem raiseFault_accOvf (f : FCode) (w : CmdWord) (s : State) : (raiseFault f w s).accOvf = s.accOvf := rfl
@[simp] theorem raiseFault_eout (f : FCode) (w : CmdWord) (s : State) : (raiseFault f w s).eout = s.eout := rfl
@[simp] theorem raiseFault_dhdr (f : FCode) (w : CmdWord) (s : State) : (raiseFault f w s).dhdr = s.dhdr := rfl
@[simp] theorem raiseFault_dsym (f : FCode) (w : CmdWord) (s : State) : (raiseFault f w s).dsym = s.dsym := rfl
@[simp] theorem raiseFault_input (f : FCode) (w : CmdWord) (s : State) : (raiseFault f w s).input = s.input := rfl

@[simp] theorem clearAll_phase (s : State) : (clearAll s).phase = .idle := rfl
@[simp] theorem clearAll_fcode (s : State) : (clearAll s).fcode = .noFault := rfl
@[simp] theorem clearAll_finfo (s : State) : (clearAll s).finfo = 0#16 := rfl
@[simp] theorem clearAll_tailBits (s : State) : (clearAll s).tailBits = 0#3 := rfl
@[simp] theorem clearAll_ct (s : State) : (clearAll s).ct = [] := rfl
@[simp] theorem clearAll_stg (s : State) : (clearAll s).stg = none := rfl
@[simp] theorem clearAll_pkByte (s : State) : (clearAll s).pkByte = 0#8 := rfl
@[simp] theorem clearAll_pkCnt (s : State) : (clearAll s).pkCnt = 0#3 := rfl
@[simp] theorem clearAll_acc (s : State) : (clearAll s).acc = [] := rfl
@[simp] theorem clearAll_accOvf (s : State) : (clearAll s).accOvf = false := rfl
@[simp] theorem clearAll_eout (s : State) : (clearAll s).eout = s.eout := rfl
@[simp] theorem clearAll_dhdr (s : State) : (clearAll s).dhdr = s.dhdr := rfl
@[simp] theorem clearAll_dsym (s : State) : (clearAll s).dsym = s.dsym := rfl
@[simp] theorem clearAll_input (s : State) : (clearAll s).input = s.input := rfl

end Sys2Proof.Machine
end

