-- ==== Sys2Proof/Laws/Memory.lean ====
section
/-! SUPPORT. The code table: what a read gives after a write, and that every operation keeps the canonical
form. -/

namespace Sys2Proof.Machine

@[simp] theorem read_nil (a : Nat) : Memory.read [] a = none := rfl

theorem read_cons (k : Nat) (q : Bits) (m : Memory) (a : Nat) :
    Memory.read ((k, q) :: m) a = if k = a then some q else m.read a := rfl

/-- A read after a write: the written entry at its address, every other entry as before. -/
theorem read_write (m : Memory) (a b : Nat) (p : Bits) :
    (m.write a p).read b = if b = a then some p else m.read b := by
  induction m with
  | nil => simp [Memory.write, read_cons, eq_comm]
  | cons e m ih =>
    obtain ⟨k, q⟩ := e
    rw [Memory.write]
    split
    · simp only [read_cons]; grind
    · split
      · simp only [read_cons]; grind
      · simp only [read_cons, ih]; grind

/-- The entries after a write are the written one and entries from before. -/
theorem mem_write {m : Memory} {a : Nat} {p : Bits} {e : Nat × Bits} (h : e ∈ m.write a p) :
    e = (a, p) ∨ e ∈ m := by
  induction m with
  | nil => simpa [Memory.write] using h
  | cons e' m ih =>
    rw [Memory.write] at h
    split at h
    · simpa using h
    · split at h
      · rcases List.mem_cons.1 h with h | h
        · exact .inl h
        · exact .inr (.tail _ h)
      · rcases List.mem_cons.1 h with h | h
        · exact .inr (h ▸ .head _)
        · rcases ih h with h | h
          · exact .inl h
          · exact .inr (.tail _ h)

/-- A write keeps the addresses rising. -/
theorem write_rising {m : Memory} (a : Nat) (p : Bits) (h : m.Pairwise fun x y => x.1 < y.1) :
    (m.write a p).Pairwise fun x y => x.1 < y.1 := by
  induction m with
  | nil => simp [Memory.write]
  | cons e m ih =>
    obtain ⟨k, q⟩ := e
    have ⟨hm, ht⟩ := List.pairwise_cons.1 h
    rw [Memory.write]
    split
    · rename_i hk
      refine List.pairwise_cons.2 ⟨fun y hy => ?_, h⟩
      rcases List.mem_cons.1 hy with rfl | hy
      · exact hk
      · exact Nat.lt_trans hk (hm y hy)
    · split
      · rename_i hk
        exact List.pairwise_cons.2 ⟨fun y hy => hk ▸ hm y hy, ht⟩
      · refine List.pairwise_cons.2 ⟨fun y hy => ?_, ih ht⟩
        rcases mem_write hy with rfl | hy
        · show _ < a; omega
        · exact hm y hy

/-- A write of a path of 1..255 bits at a symbol keeps the canonical form. -/
theorem write_wf {m : Memory} (sym : Byte) (p : Bits) (h : m.wf) (h1 : 1 ≤ p.length)
    (h255 : p.length ≤ 255) : (m.write sym.toNat p).wf := by
  refine ⟨write_rising _ _ h.1, fun e he => ?_⟩
  rcases mem_write he with rfl | he
  · exact ⟨sym.isLt, h1, h255⟩
  · exact h.2 e he

/-- The cleared table is in the canonical form. -/
theorem nil_wf : Memory.wf [] := by decide

/-- The reset state's table is in the canonical form. -/
theorem reset_ct_wf : State.reset.ct.wf := nil_wf

/-- A read that answers has found a listed entry. -/
theorem mem_of_read {m : Memory} {a : Nat} {p : Bits} (h : m.read a = some p) : (a, p) ∈ m := by
  induction m with
  | nil => simp at h
  | cons e m ih =>
    obtain ⟨k, q⟩ := e
    rw [read_cons] at h
    split at h
    · simp_all
    · exact .tail _ (ih h)

/-- In the canonical form every listed entry is what its address reads as. -/
theorem read_of_mem {m : Memory} (hm : m.Pairwise fun x y => x.1 < y.1) {a : Nat} {p : Bits}
    (h : (a, p) ∈ m) : m.read a = some p := by
  induction m with
  | nil => simp at h
  | cons e m ih =>
    obtain ⟨k, q⟩ := e
    have ⟨hk, ht⟩ := List.pairwise_cons.1 hm
    rw [read_cons]
    rcases List.mem_cons.1 h with h | h
    · simp_all
    · have := hk _ h
      simp only at this
      rw [if_neg (by omega), ih ht h]

/-- The addresses CTMatch finds are those of the listed entries with that path. -/
theorem mem_find {m : Memory} {p : Bits} {a : Nat} : a ∈ m.find p ↔ (a, p) ∈ m := by
  simp only [Memory.find, List.mem_map, List.mem_filter, beq_iff_eq]
  constructor
  · rintro ⟨⟨k, q⟩, ⟨h, rfl⟩, rfl⟩; exact h
  · intro h; exact ⟨(a, p), ⟨h, rfl⟩, rfl⟩

/-- A listed entry is what its address, taken as a symbol, reads as. -/
theorem read_symbol {m : Memory} (hm : m.wf) {a : Nat} {p : Bits} (h : (a, p) ∈ m) :
    m.read (BitVec.ofNat 8 a).toNat = some p := by
  rw [BitVec.toNat_ofNat, Nat.mod_eq_of_lt (hm.2 _ h).1]
  exact read_of_mem hm.1 h

/-- Entries at different addresses of a table that meets the table invariant: neither path is a prefix of the
other. -/
theorem not_prefix_of_ne {m : Memory} (hm : m.Pairwise fun x y => ¬ x.2 <+: y.2 ∧ ¬ y.2 <+: x.2) {a b : Nat}
    {p q : Bits} (ha : (a, p) ∈ m) (hb : (b, q) ∈ m) (h : a ≠ b) : ¬ p <+: q := by
  induction m with
  | nil => cases ha
  | cons e m ih =>
    have ⟨he, ht⟩ := List.pairwise_cons.1 hm
    rcases List.mem_cons.1 ha with h1 | h1 <;> rcases List.mem_cons.1 hb with h2 | h2
    · rw [← h1] at h2; exact absurd (by cases h2; rfl) h
    · subst h1; exact (he _ h2).1
    · subst h2; exact (he _ h1).2
    · exact ih ht h1 h2

/-- At most one address has a given path. -/
theorem find_cases {m : Memory} (hm : tableOk m) (p : Bits) :
    (m.find p = [] ∧ ∀ a, (a, p) ∉ m) ∨ ∃ a, m.find p = [a] ∧ (a, p) ∈ m := by
  rcases hf : m.find p with _ | ⟨a, _ | ⟨b, l⟩⟩
  · refine .inl ⟨rfl, fun a ha => ?_⟩
    have := mem_find.2 ha
    rw [hf] at this; cases this
  · exact .inr ⟨a, rfl, mem_find.1 (by rw [hf]; simp)⟩
  · exfalso
    have ha : (a, p) ∈ m := mem_find.1 (by rw [hf]; simp)
    have hb : (b, p) ∈ m := mem_find.1 (by rw [hf]; simp)
    by_cases hab : a = b
    · have hn : (m.find p).Pairwise (· < ·) := by
        unfold Memory.find
        exact List.pairwise_map.2 (hm.1.1.filter _)
      rw [hf, hab] at hn
      simpa using (List.pairwise_cons.1 hn).1 b (by simp)
    · exact not_prefix_of_ne hm.2 ha hb hab List.prefix_rfl

/-- The table invariant is kept by a write at an address with no entry of a path that no entry's path is a prefix
of, nor has as a prefix. -/
theorem write_tableOk {m : Memory} (hm : tableOk m) (sym : Byte) (p : Bits) (h1 : 1 ≤ p.length)
    (h255 : p.length ≤ 255) (hc : ∀ e ∈ m, ¬ e.2 <+: p ∧ ¬ p <+: e.2) :
    tableOk (m.write sym.toNat p) := by
  refine ⟨write_wf sym p hm.1 h1 h255, ?_⟩
  have hp := hm.2
  clear hm
  induction m with
  | nil => simp [Memory.write]
  | cons e m ih =>
    obtain ⟨k, q⟩ := e
    have ⟨he, ht⟩ := List.pairwise_cons.1 hp
    have hq : ¬ q <+: p ∧ ¬ p <+: q := hc _ (.head _)
    rw [Memory.write]
    split
    · refine List.pairwise_cons.2 ⟨fun y hy => ?_, hp⟩
      rcases List.mem_cons.1 hy with rfl | hy
      · exact hq.symm
      · exact (hc _ (.tail _ hy)).symm
    · split
      · exact List.pairwise_cons.2 ⟨fun y hy => (hc _ (.tail _ hy)).symm, ht⟩
      · refine List.pairwise_cons.2 ⟨fun y hy => ?_, ih (fun e he => hc e (.tail _ he)) ht⟩
        rcases mem_write hy with rfl | hy
        · exact hq
        · exact he y hy

/-- Two tables in the canonical form that read the same everywhere are the same list. -/
theorem eq_of_read_eq {m n : Memory} (hm : m.Pairwise fun x y => x.1 < y.1)
    (hn : n.Pairwise fun x y => x.1 < y.1) (h : ∀ a, m.read a = n.read a) : m = n := by
  induction m generalizing n with
  | nil =>
    cases n with
    | nil => rfl
    | cons e n => have := h e.1; simp [Memory.read] at this
  | cons e m ih =>
    obtain ⟨k, q⟩ := e
    have ⟨hk, ht⟩ := List.pairwise_cons.1 hm
    cases n with
    | nil => have := h k; simp [read_cons] at this
    | cons e' n =>
      obtain ⟨k', q'⟩ := e'
      have ⟨hk', ht'⟩ := List.pairwise_cons.1 hn
      have below : ∀ {l : Memory} {c : Nat}, (∀ y ∈ l, c < y.1) → l.read c = none := by
        intro l c hl
        cases hr : l.read c with
        | none => rfl
        | some p => have := hl _ (mem_of_read hr); simp at this
      have hkk : k = k' := by
        rcases Nat.lt_trichotomy k k' with hlt | heq | hgt
        · have := h k
          rw [read_cons, if_pos rfl, below (l := (k', q') :: n)] at this
          · simp at this
          · intro y hy
            rcases List.mem_cons.1 hy with rfl | hy
            · exact hlt
            · exact Nat.lt_trans hlt (hk' y hy)
        · exact heq
        · have := h k'
          rw [read_cons k', if_pos rfl, below (l := (k, q) :: m)] at this
          · simp at this
          · intro y hy
            rcases List.mem_cons.1 hy with rfl | hy
            · exact hgt
            · exact Nat.lt_trans hgt (hk y hy)
      subst hkk
      have hq := h k
      simp only [read_cons, if_true, Option.some.injEq] at hq
      subst hq
      congr 1
      refine ih ht ht' fun a => ?_
      by_cases ha : k = a
      · subst ha; rw [below hk, below hk']
      · have := h a
        simpa [read_cons, ha] using this

end Sys2Proof.Machine
end

