-- ==== Sys2Proof/Laws/Ops.lean ====
section
/-! SUPPORT. What each shared operation can do, said once. -/

namespace Sys2Proof.Machine

/-- A guarded command is ignored, runs its own rule, or is out of sequence (R88). -/
theorem guarded_cases (w : CmdWord) (legal : Bool) (body : State → State) (s : State) :
    (s.phase = .fault ∧ guarded w legal body s = s) ∨
      (s.phase ≠ .fault ∧ legal = true ∧ guarded w legal body s = body s) ∨
      (s.phase ≠ .fault ∧ legal = false ∧ guarded w legal body s = raiseFault .seq w s) := by
  unfold guarded
  by_cases h : s.phase = .fault <;> cases legal <;> simp [h]

/-- An ill-formed word is ignored or raises E_ILLCMD (R86). -/
theorem illFormed_cases (w : CmdWord) (s : State) :
    (s.phase = .fault ∧ illFormed w s = s) ∨
      (s.phase ≠ .fault ∧ illFormed w s = raiseFault .illCmd w s) := by
  unfold illFormed
  by_cases h : s.phase = .fault <;> simp [h]

/-- The own rule of CT_BIT (R112). -/
theorem stageBit_cases (w : CmdWord) (b : Bool) (s : State) :
    (s.stg = none ∧ stageBit w b s = s) ∨
      ∃ r, s.stg = some r ∧
        ((255 ≤ r.path.length ∧ stageBit w b s = raiseFault .pathLen w s) ∨
          (r.path.length < 255 ∧ stageBit w b s = { s with stg := some ⟨r.sym, r.path ++ [b]⟩ })) := by
  unfold stageBit
  cases h : s.stg with
  | none => simp
  | some r =>
    refine .inr ⟨r, rfl, ?_⟩
    by_cases hl : Config.maxLen ≤ r.path.length
    · exact .inl ⟨hl, by simp [hl]⟩
    · exact .inr ⟨Nat.lt_of_not_le hl, by simp [hl]⟩

/-- The own rule of CT_COMMIT (R113). -/
theorem commitStaged_cases (w : CmdWord) (s : State) :
    (s.stg = none ∧ commitStaged w s = s) ∨
      ∃ r, s.stg = some r ∧
        ((r.path = [] ∧ commitStaged w s = raiseFault .emptyPath w s) ∨
          (r.path ≠ [] ∧ (∃ p, ctRead s r.sym = some p) ∧ commitStaged w s = raiseFault .dupSym w s) ∨
          (r.path ≠ [] ∧ ctRead s r.sym = none ∧ (∃ e ∈ s.ct, conflict e.2 r.path = true) ∧
            commitStaged w s = raiseFault .conflict w s) ∨
          (r.path ≠ [] ∧ ctRead s r.sym = none ∧ (∀ e ∈ s.ct, conflict e.2 r.path = false) ∧
            commitStaged w s = { s with ct := s.ct.write r.sym.toNat r.path, stg := none })) := by
  unfold commitStaged
  cases h : s.stg with
  | none => simp
  | some r =>
    refine .inr ⟨r, rfl, ?_⟩
    by_cases h0 : r.path = []
    · exact .inl ⟨h0, by simp [h0]⟩
    · right
      cases hr : ctRead s r.sym with
      | some p => exact .inl ⟨h0, ⟨p, rfl⟩, by simp [h0, hr]⟩
      | none =>
        right
        by_cases hc : ∃ e ∈ s.ct, conflict e.2 r.path = true
        · exact .inl ⟨h0, rfl, hc, by simp only [List.length_eq_zero_iff, h0, hr]; simp [hc]⟩
        · have hc' : ∀ e ∈ s.ct, conflict e.2 r.path = false := by
            intro e he
            by_contra hne
            exact hc ⟨e, he, by simpa using hne⟩
          refine .inr ⟨h0, rfl, hc', ?_⟩
          have : s.ct.any (fun e => conflict e.2 r.path) = false := by
            simpa [List.any_eq_false] using hc'
          simp only [List.length_eq_zero_iff, h0, hr]
          simp [this]

/-! The packer. -/

/-- The bits of a byte after one is set. -/
theorem setBit_getLsbD (x : Byte) (i k : Nat) (b : Bool) (hk : k < 8) :
    (setBit x i b).getLsbD k = if k = i then b else x.getLsbD k := by
  unfold setBit
  by_cases hi : k = i
  · subst hi
    cases b <;> simp [hk]
  · rcases Nat.lt_or_gt_of_ne hi with h | h
    · simp [hk, hi, h]
    · have h1 : ¬ k < i := by omega
      have h2 : k - i ≠ 0 := by omega
      cases b <;> simp [hk, hi, h1, h2]

@[simp] theorem bitPos_eq (k : Nat) : bitPos k = 7 - k := rfl

/-- writeBit either places the bit in an unfinished byte or completes and emits the byte (R134). -/
theorem writeBit_cases (s : State) (b : Bool) :
    (s.pkCnt.toNat < 7 ∧
      writeBit s b = { s with pkByte := setBit s.pkByte (7 - s.pkCnt.toNat) b, pkCnt := s.pkCnt + 1#3 }) ∨
    (s.pkCnt = 7#3 ∧
      writeBit s b =
        { s with pkByte := 0#8, pkCnt := 0#3, eout := s.eout ++ [setBit s.pkByte 0 b] }) := by
  unfold writeBit
  by_cases h : s.pkCnt = 7#3
  · right; simp [h, emitEout]
  · left
    have : s.pkCnt.toNat ≠ 7 := fun h' => h (BitVec.eq_of_toNat_eq h')
    have := s.pkCnt.isLt
    exact ⟨by omega, by simp [h]⟩

theorem topBits_length (n : Nat) (b : Byte) : (topBits n b).length = n := by simp [topBits]

/-- The first n + 1 bits of a byte are the first n and then bit 7 - n. -/
theorem topBits_succ (n : Nat) (b : Byte) : topBits (n + 1) b = topBits n b ++ [b.getLsbD (7 - n)] := by
  simp [topBits, List.range_succ]

/-- Setting bit 7 - n leaves the n bits above it. -/
theorem topBits_setBit (n : Nat) (hn : n < 8) (x : Byte) (b : Bool) :
    topBits (n + 1) (setBit x (7 - n) b) = topBits n x ++ [b] := by
  rw [topBits_succ, setBit_getLsbD _ _ _ _ (by omega), if_pos rfl]
  congr 1
  refine List.map_congr_left fun k hk => ?_
  have := List.mem_range.1 hk
  rw [setBit_getLsbD _ _ _ _ (by omega), if_neg (by omega)]

/-- The unpacker delivers the top bits of the byte (R154). -/
theorem payloadBits_eq (d : Byte) (n : Nat) : payloadBits d n = topBits (min n 8) d := rfl

theorem streamBits_append (xs ys : List Byte) : streamBits (xs ++ ys) = streamBits xs ++ streamBits ys := by
  simp [streamBits]

theorem streamBits_length (xs : List Byte) : (streamBits xs).length = 8 * xs.length := by
  induction xs with
  | nil => rfl
  | cons x xs ih =>
    simp only [streamBits, List.flatMap_cons, List.length_append, topBits_length] at *
    rw [ih]; simp; omega

/-- The packer's law: what writeBits adds to EOUT and leaves waiting is what waited before and then the path,
bit for bit; nothing else of the state changes (R133, R134). -/
theorem writeBits_spec (s : State) (p : Bits) :
    ∃ out, (writeBits s p).eout = s.eout ++ out ∧
      streamBits out ++ waitingBits (writeBits s p) = waitingBits s ++ p ∧
      writeBits s p = { s with eout := s.eout ++ out, pkByte := (writeBits s p).pkByte, pkCnt := (writeBits s p).pkCnt } := by
  induction p generalizing s with
  | nil => exact ⟨[], by simp [writeBits], by simp [writeBits, streamBits], by simp [writeBits]⟩
  | cons b p ih =>
    obtain ⟨out, h1, h2, h3⟩ := ih (writeBit s b)
    have hw : writeBits s (b :: p) = writeBits (writeBit s b) p := rfl
    rw [hw]
    rcases writeBit_cases s b with ⟨hc, he⟩ | ⟨hc, he⟩
    · refine ⟨out, by rw [h1, he], ?_, by rw [h3]; simp [he]⟩
      have : waitingBits (writeBit s b) = waitingBits s ++ [b] := by
        have hn : (s.pkCnt + 1#3).toNat = s.pkCnt.toNat + 1 := by
          rw [BitVec.toNat_add]; simp; omega
        rw [he]
        simp only [waitingBits, hn]
        exact topBits_setBit _ (by omega) _ _
      rw [h2, this]; simp
    · refine ⟨setBit s.pkByte 0 b :: out, by rw [h1, he]; simp, ?_, by rw [h3]; simp [he]⟩
      have h0 : waitingBits (writeBit s b) = [] := by rw [he]; rfl
      have h8 : topBits 8 (setBit s.pkByte 0 b) = waitingBits s ++ [b] := by
        have : s.pkCnt.toNat = 7 := by rw [hc]; rfl
        simp only [waitingBits, this]
        exact topBits_setBit 7 (by omega) _ _
      have : streamBits (setBit s.pkByte 0 b :: out) = topBits 8 (setBit s.pkByte 0 b) ++ streamBits out := rfl
      rw [this, List.append_assoc, h2, h0, h8]; simp

/-- The packer never leaves a set bit below the last one placed (R28). -/
theorem writeBit_low {s : State} (b : Bool) (h : ∀ k < 8 - s.pkCnt.toNat, s.pkByte.getLsbD k = false) :
    ∀ k < 8 - (writeBit s b).pkCnt.toNat, (writeBit s b).pkByte.getLsbD k = false := by
  intro k hk
  rcases writeBit_cases s b with ⟨hc, he⟩ | ⟨hc, he⟩
  · have hn : (s.pkCnt + 1#3).toNat = s.pkCnt.toNat + 1 := by
      rw [BitVec.toNat_add]; simp; omega
    rw [he] at hk ⊢
    simp only [hn] at hk
    show (setBit _ _ _).getLsbD k = false
    rw [setBit_getLsbD _ _ _ _ (by omega), if_neg (by omega)]
    exact h k (by omega)
  · rw [he]; simp

theorem writeBits_low {s : State} (p : Bits) (h : ∀ k < 8 - s.pkCnt.toNat, s.pkByte.getLsbD k = false) :
    ∀ k < 8 - (writeBits s p).pkCnt.toNat, (writeBits s p).pkByte.getLsbD k = false := by
  induction p generalizing s with
  | nil => exact h
  | cons b p ih => exact ih (writeBit_low b h)

/-! The matcher. -/

/-- feed drops the bit, overflows, emits a symbol, or accumulates (R155, R159). -/
theorem feed_cases (s : State) (b : Bool) :
    (s.accOvf = true ∧ feed s b = s) ∨
    (s.accOvf = false ∧ 255 ≤ s.acc.length ∧ feed s b = { s with accOvf := true }) ∨
    (s.accOvf = false ∧ s.acc.length < 255 ∧ ∃ a, s.ct.find (s.acc ++ [b]) = [a] ∧
      feed s b = { s with acc := [], dsym := s.dsym ++ [BitVec.ofNat 8 a] }) ∨
    (s.accOvf = false ∧ s.acc.length < 255 ∧ (∀ a, s.ct.find (s.acc ++ [b]) ≠ [a]) ∧
      feed s b = { s with acc := s.acc ++ [b] }) := by
  unfold feed
  cases ho : s.accOvf with
  | true => simp
  | false =>
    by_cases hl : Config.maxLen ≤ s.acc.length
    · have : 255 ≤ s.acc.length := hl
      simp [hl, this]
    · have hl' : s.acc.length < 255 := Nat.lt_of_not_le hl
      right; right
      simp only [Bool.false_eq_true, if_false, hl, ctMatch]
      rcases hf : s.ct.find (s.acc ++ [b]) with _ | ⟨a, _ | ⟨c, l⟩⟩
      · right; simp [hl']
      · left; exact ⟨trivial, hl', a, rfl, by simp [emitDsym]⟩
      · right; simp [hl']

/-- feedBits changes the accumulator and DSYM only, and DSYM grows by at most one symbol a bit. -/
theorem feedBits_frame (s : State) (bs : Bits) :
    ∃ out, (feedBits s bs).dsym = s.dsym ++ out ∧ out.length ≤ bs.length ∧
      feedBits s bs = { s with acc := (feedBits s bs).acc, accOvf := (feedBits s bs).accOvf, dsym := s.dsym ++ out } := by
  induction bs generalizing s with
  | nil => exact ⟨[], by simp [feedBits], by simp, by simp [feedBits]⟩
  | cons b bs ih =>
    obtain ⟨out, h1, h2, h3⟩ := ih (feed s b)
    have hw : feedBits s (b :: bs) = feedBits (feed s b) bs := rfl
    rw [hw]
    rcases feed_cases s b with ⟨_, he⟩ | ⟨_, _, he⟩ | ⟨_, _, a, _, he⟩ | ⟨_, _, _, he⟩
    · exact ⟨out, by rw [h1, he], by simp; omega, by rw [h3]; simp [he]⟩
    · exact ⟨out, by rw [h1, he], by simp; omega, by rw [h3]; simp [he]⟩
    · exact ⟨BitVec.ofNat 8 a :: out, by rw [h1, he]; simp, by simp; omega, by rw [h3]; simp [he]⟩
    · exact ⟨out, by rw [h1, he], by simp; omega, by rw [h3]; simp [he]⟩

theorem endOfBits_cases (w : CmdWord) (s : State) :
    (s.acc ≠ [] ∧ endOfBits w s = raiseFault .premEnd w s) ∨
      (s.acc = [] ∧ endOfBits w s = { s with phase := .idle }) := by
  unfold endOfBits
  by_cases h : s.acc = [] <;> simp [h]

/-- header_byte ends the header line, finds the file ended, or delivers the byte (R152). -/
theorem headerByte_cases (w : CmdWord) (data : Byte) (last : Bool) (s : State) :
    (data = 0x0A#8 ∧ headerByte w data last s = { s with phase := if last then .idle else .decTbl }) ∨
      (data ≠ 0x0A#8 ∧ last = true ∧ headerByte w data last s = raiseFault .hdrEnd w s) ∨
      (data ≠ 0x0A#8 ∧ last = false ∧ headerByte w data last s = { s with dhdr := s.dhdr ++ [data] }) := by
  unfold headerByte
  have : Config.nl = 0x0A#8 := rfl
  rw [this]
  by_cases h : data = 0x0A#8
  · simp [h]
  · cases last <;> simp [h, emitDhdr]

end Sys2Proof.Machine
end

