-- ==== Sys2Proof/Laws/Commands.lean ====
section
/-! SUPPORT. What the commands' own rules, the execution of a word, the step and a run can do, said once. -/

namespace Sys2Proof.Machine

/-- The own rule of ENC_SYM: E_UNENC, or the path goes to the packer (R133). -/
theorem packSymbol_cases (w : CmdWord) (byte : Byte) (s : State) :
    (ctRead s byte = none ∧ packSymbol w byte s = raiseFault .unenc w s) ∨
      ∃ p, ctRead s byte = some p ∧ packSymbol w byte s = writeBits s p := by
  unfold packSymbol
  cases h : ctRead s byte with
  | none => simp
  | some p => exact .inr ⟨p, rfl, rfl⟩

/-- The own rule of ENC_END (R135). -/
theorem flushPacker_eq (s : State) :
    flushPacker s =
      { s with tailBits := s.pkCnt, eout := s.eout ++ (if s.pkCnt = 0#3 then [] else [s.pkByte]),
               pkByte := 0#8, pkCnt := 0#3, phase := .idle } := by
  unfold flushPacker
  by_cases h : s.pkCnt = 0#3 <;> simp [h, emitEout]

/-- Where a decoder command is legal outside the header phase, it is at a payload (R151, R184). -/
theorem decLegal_payload {s : State} (h : decLegal s = true) (hh : s.phase ≠ .decHdr) :
    (s.phase = .decTbl ∧ s.stg = none) ∨ s.phase = .decPay := by
  unfold decLegal at h
  cases hp : s.phase <;> simp_all [stgOpen]

/-- A payload byte changes PHASE, the accumulator and DSYM only (R151). -/
theorem payloadByte_frame (d : Byte) (n : Nat) (s : State) :
    ∃ out, out.length ≤ min n 8 ∧ payloadByte d n s =
      { s with phase := .decPay, acc := (payloadByte d n s).acc, accOvf := (payloadByte d n s).accOvf,
               dsym := s.dsym ++ out } := by
  obtain ⟨out, _, h2, h3⟩ := feedBits_frame { s with phase := .decPay } (payloadBits d n)
  refine ⟨out, ?_, by unfold payloadByte; rw [h3]⟩
  rwa [payloadBits_eq, topBits_length] at h2

/-- The table phases are the four phases that are neither a payload phase nor FAULT (R115). -/
theorem tablePhase_iff (s : State) :
    tablePhase s = true ↔ s.phase = .idle ∨ s.phase = .encHdr ∨ s.phase = .decHdr ∨ s.phase = .decTbl := by
  unfold tablePhase
  cases s.phase <;> simp

/-- A word runs as what it decodes to, or is ill-formed (R80, R86). -/
theorem runWord_cases (w : CmdWord) (s : State) :
    (∃ i, decode w = .ok i ∧ runWord w s = exec i s) ∨
      ∃ e, decode w = .error e ∧ runWord w s = .next (illFormed w s) := by
  unfold runWord
  cases h : decode w with
  | ok i => exact .inl ⟨i, rfl, rfl⟩
  | error e => exact .inr ⟨e, rfl, rfl⟩

/-- A step waits, runs a word, resets, or resets in the middle of a word. -/
theorem step_cases {s t : State} (h : step s = .next t) :
    (s.input = [] ∧ t = s) ∨
    (∃ w rest, s.input = .word w :: rest ∧ runWord w { s with input := rest } = .next t) ∨
    (∃ rest, s.input = .reset :: rest ∧ t = clearAll { s with input := rest }) ∨
    (∃ w n rest u, s.input = .resetDuring w n :: rest ∧ runWord w { s with input := rest } = .next u ∧
      t = cutShort n { s with input := rest } u) := by
  unfold step fetchInput at h
  rcases hi : s.input with _ | ⟨x, rest⟩
  · rw [hi] at h; cases h; exact .inl ⟨rfl, rfl⟩
  · rw [hi] at h
    right
    cases x with
    | word w => exact .inl ⟨w, rest, rfl, h⟩
    | reset => cases h; exact .inr (.inl ⟨rest, rfl, rfl⟩)
    | resetDuring w n =>
      simp only [takeInput] at h
      split at h
      · rename_i u hu
        cases h
        exact .inr (.inr ⟨w, n, rest, u, rfl, hu, rfl⟩)
      · cases h
      · cases h

/-- A reset in the middle of a command clears everything but the traces and the inputs to come (R230). -/
theorem cutShort_eq (n : Nat) (s t : State) :
    cutShort n s t =
      { State.reset with
        eout := deliveredOnly s.eout t.eout n, dhdr := deliveredOnly s.dhdr t.dhdr n,
        dsym := deliveredOnly s.dsym t.dsym n, input := t.input } := rfl

/-- Of a trace that a command extended by out, a reset keeps the first n bytes of out (R230). -/
theorem deliveredOnly_append (before out : List Byte) (n : Nat) :
    deliveredOnly before (before ++ out) n = before ++ out.take n := by
  simp [deliveredOnly]

@[simp] theorem execList_nil (s : State) : execList [] s = .next s := rfl

theorem execList_cons {i : Instr} {is : List Instr} {s t : State} (h : exec i s = .next t) :
    execList (i :: is) s = execList is t := by
  simp [execList, h]

/-- A run of two lists one after the other. -/
theorem execList_append {is js : List Instr} {s t : State} (h : execList is s = .next t) :
    execList (is ++ js) s = execList js t := by
  induction is generalizing s with
  | nil => cases h; rfl
  | cons i is ih =>
    simp only [execList, List.cons_append] at h ⊢
    split at h
    · exact ih h
    · cases h
    · cases h

end Sys2Proof.Machine
end

