-- ==== Sys2Proof/Laws/PerInstr.lean ====
section
/-! SUPPORT. Per-instruction statements. TableRow: the encoder's word has the fixed bits that the instruction's
row of spec/opcode_table.json gives. -/

namespace Sys2Proof.Laws

/-- mask and match of the instruction's row, as spec/opcode_table.json has them. -/
def rowOf : Instr → BitVec 16 × BitVec 16
  | .nop => (0xFFFF#16, 0x0000#16)
  | .ctClear => (0xFFFF#16, 0x1000#16)
  | .ctOpen _ => (0xFF00#16, 0x2000#16)
  | .ctBit _ => (0xFFFE#16, 0x3000#16)
  | .ctCommit => (0xFFFF#16, 0x4000#16)
  | .encStart => (0xFFFF#16, 0x5000#16)
  | .encHdrb _ => (0xFF00#16, 0x6000#16)
  | .encHdrend => (0xFFFF#16, 0x7000#16)
  | .encSym _ => (0xFF00#16, 0x8000#16)
  | .encEnd => (0xFFFF#16, 0x9000#16)
  | .decStart => (0xFFFF#16, 0xA000#16)
  | .decByte _ => (0xFF00#16, 0xB700#16)
  | .decByteLast _ _ => (0xF800#16, 0xB800#16)
  | .decEnd => (0xFFFF#16, 0xC000#16)
  | .reservedD _ => (0xF000#16, 0xD000#16)
  | .reservedE _ => (0xF000#16, 0xE000#16)
  | .abort => (0xFFFF#16, 0xF000#16)

/-- The word of the instruction meets its row. -/
def TableRow.Statement (i : Instr) : Prop := encode i &&& (rowOf i).1 = (rowOf i).2

theorem TableRow.nop : TableRow.Statement .nop := by unfold TableRow.Statement; decide
theorem TableRow.ctClear : TableRow.Statement .ctClear := by unfold TableRow.Statement; decide
theorem TableRow.ctOpen (byte : Byte) : TableRow.Statement (.ctOpen byte) := by
  revert byte; unfold TableRow.Statement; decide
theorem TableRow.ctBit (b : Bool) : TableRow.Statement (.ctBit b) := by
  revert b; unfold TableRow.Statement; decide
theorem TableRow.ctCommit : TableRow.Statement .ctCommit := by unfold TableRow.Statement; decide
theorem TableRow.encStart : TableRow.Statement .encStart := by unfold TableRow.Statement; decide
theorem TableRow.encHdrb (byte : Byte) : TableRow.Statement (.encHdrb byte) := by
  revert byte; unfold TableRow.Statement; decide
theorem TableRow.encHdrend : TableRow.Statement .encHdrend := by unfold TableRow.Statement; decide
theorem TableRow.encSym (byte : Byte) : TableRow.Statement (.encSym byte) := by
  revert byte; unfold TableRow.Statement; decide
theorem TableRow.encEnd : TableRow.Statement .encEnd := by unfold TableRow.Statement; decide
theorem TableRow.decStart : TableRow.Statement .decStart := by unfold TableRow.Statement; decide
theorem TableRow.decByte (data : Byte) : TableRow.Statement (.decByte data) := by
  revert data; unfold TableRow.Statement; decide
theorem TableRow.decByteLast (nvalid : BitVec 4) (data : Byte) :
    TableRow.Statement (.decByteLast nvalid data) := by
  have hm : (0xF800#16 : BitVec 16) = (0xF#4 ++ 1#1 ++ 0#3 : BitVec 8) ++ 0#8 := by decide
  have hv : (0xB800#16 : BitVec 16) = (0xB#4 ++ 1#1 ++ 0#3 : BitVec 8) ++ 0#8 := by decide
  show (0xB#4 ++ 1#1 ++ (nvalid - 1#4).truncate 3 : BitVec 8) ++ data &&& (0xF800#16 : BitVec 16) = 0xB800#16
  rw [hm, hv, BitVec.and_append]
  congr 1
  · rw [BitVec.and_append]; simp
  · simp
theorem TableRow.decEnd : TableRow.Statement .decEnd := by unfold TableRow.Statement; decide
theorem TableRow.reservedD (arg : BitVec 12) : TableRow.Statement (.reservedD arg) := by
  show (0xD#4 ++ arg) &&& (0xF#4 ++ 0#12) = 0xD#4 ++ 0#12
  rw [BitVec.and_append]; simp
theorem TableRow.reservedE (arg : BitVec 12) : TableRow.Statement (.reservedE arg) := by
  show (0xE#4 ++ arg) &&& (0xF#4 ++ 0#12) = 0xE#4 ++ 0#12
  rw [BitVec.and_append]; simp
theorem TableRow.abort : TableRow.Statement .abort := by unfold TableRow.Statement; decide

end Sys2Proof.Laws
end

