-- ==== Sys2Proof/Tests/Slice0.lean ====
section
/-! SUPPORT. Tests: the well-formedness smoke, words written out from the spec's encodings, one-step tests from the
vectors of 95_test_vectors.md, and a witness for the hypotheses of each statement. -/

namespace Sys2Proof.Tests

open Sys2Proof Sys2Proof.Machine

/-! WellFormed: an ill-formed term for its one check, below and above the range, and the ends of the range. -/

theorem test_wf_refuses_nvalid_0 : (Instr.decByteLast 0#4 0x00#8).wf = false := by decide
theorem test_wf_refuses_nvalid_9 : (Instr.decByteLast 9#4 0x00#8).wf = false := by decide
theorem test_wf_accepts_nvalid_1_and_8 :
    (Instr.decByteLast 1#4 0xFF#8).wf = true ∧ (Instr.decByteLast 8#4 0xFF#8).wf = true := by decide

/-! Decoding: each constructor's word, op[15:12] then the fields of its format (30_encoding.md R81 to R85). -/

theorem test_decode_nop : decode 0b0000_000000000000#16 = .ok .nop := by decide
theorem test_decode_ctClear : decode 0b0001_000000000000#16 = .ok .ctClear := by decide
theorem test_decode_ctOpen : decode 0b0010_0000_01100001#16 = .ok (.ctOpen 0b01100001#8) := by decide
theorem test_decode_ctBit : decode 0b0011_00000000000_1#16 = .ok (.ctBit true) := by decide
theorem test_decode_ctBit_zero : decode 0b0011_00000000000_0#16 = .ok (.ctBit false) := by decide
theorem test_decode_ctCommit : decode 0b0100_000000000000#16 = .ok .ctCommit := by decide
theorem test_decode_encStart : decode 0b0101_000000000000#16 = .ok .encStart := by decide
theorem test_decode_encHdrb : decode 0b0110_0000_00101000#16 = .ok (.encHdrb 0b00101000#8) := by decide
theorem test_decode_encHdrend : decode 0b0111_000000000000#16 = .ok .encHdrend := by decide
theorem test_decode_encSym : decode 0b1000_0000_11111111#16 = .ok (.encSym 0b11111111#8) := by decide
theorem test_decode_encEnd : decode 0b1001_000000000000#16 = .ok .encEnd := by decide
theorem test_decode_decStart : decode 0b1010_000000000000#16 = .ok .decStart := by decide
theorem test_decode_decByte : decode 0b1011_0_111_01011010#16 = .ok (.decByte 0b01011010#8) := by decide
theorem test_decode_decByteLast : decode 0b1011_1_110_11010110#16 = .ok (.decByteLast 7#4 0b11010110#8) := by
  decide
theorem test_decode_decByteLast_one : decode 0b1011_1_000_10000000#16 = .ok (.decByteLast 1#4 0b10000000#8) := by
  decide
theorem test_decode_decByteLast_eight : decode 0b1011_1_111_00000001#16 = .ok (.decByteLast 8#4 0b00000001#8) := by
  decide
theorem test_decode_decEnd : decode 0b1100_000000000000#16 = .ok .decEnd := by decide
theorem test_decode_reservedD : decode 0b1101_000100100011#16 = .ok (.reservedD 0b000100100011#12) := by decide
theorem test_decode_reservedE : decode 0b1110_111111111111#16 = .ok (.reservedE 0b111111111111#12) := by decide
theorem test_decode_abort : decode 0b1111_000000000000#16 = .ok .abort := by decide

/-- The ill-formed words of V41 are rejected by the rule each breaks. -/
theorem test_decode_rejects :
    decode 0x0001#16 = .error .mustBeZero ∧ decode 0x2100#16 = .error .mustBeZero ∧
      decode 0x3002#16 = .error .mustBeZero ∧ decode 0xB000#16 = .error .partialByteNotLast ∧
      decode 0xB600#16 = .error .partialByteNotLast ∧ decode 0xC800#16 = .error .mustBeZero ∧
      decode 0xFFFF#16 = .error .mustBeZero := by decide

/-- The host's word numbering: a row's word, and a reserved row's. -/
theorem test_decodeTableWord :
    decodeTableWord 16 0xBED6 = some (.decByteLast 7#4 0xD6#8) ∧ decodeTableWord 16 0xD000 = some (.reservedD 0#12) ∧
      decodeTableWord 16 0x0FFF = none := by decide

/-! One-step tests. -/

/-- The state an outcome leads to. -/
def nextOf (o : Host.Outcome State Fault Refusal) : Option State :=
  match o with
  | .next t => some t
  | .fault _ => none
  | .refused _ => none

/-- What a step that takes the word leads to. -/
def after (w : Nat) (s : State) : Option State := nextOf (step (s.withFetchWord 16 w))

/-- The STATUS word after a step that takes the word. -/
def statusAfter (w : Nat) (s : State) : Option (BitVec 32) := (after w s).map status

/-- A state of that phase, else as after reset. -/
def inPhase (p : Phase) : State := { State.reset with phase := p }

/-- The table of the preamble ABC: a "0", b "10", c "11". -/
def abc : Memory := [(0x61, [false]), (0x62, [true, false]), (0x63, [true, true])]

/-- A state of that phase with that table. -/
def withAbc (p : Phase) : State := { inPhase p with ct := abc }

/-- A faulted state, as V45 leaves it. -/
def faulted : State := { State.reset with phase := .fault, fcode := .seq, finfo := 0x8061#16 }

/-- A state of that phase with the record staged. -/
def staging (p : Phase) (sym : Byte) (path : Bits) : State := { inPhase p with stg := some ⟨sym, path⟩ }

/-- V10. -/
theorem test_ctClear_closes_staging :
    after 0x1000 { withAbc .idle with stg := some ⟨0x62#8, [true]⟩ } = some State.reset := by decide
/-- V11. -/
theorem test_ctClear_in_encPay : statusAfter 0x1000 (withAbc .encPay) = some 0x10000027#32 := by decide
/-- R111, example. -/
theorem test_ctOpen : (after 0x2061 State.reset).map (·.stg) = some (some ⟨0x61#8, []⟩) := by decide
/-- V8. -/
theorem test_ctOpen_twice : statusAfter 0x2062 (staging .idle 0x61#8 []) = some 0x2062002F#32 := by decide
/-- R112, example. -/
theorem test_ctBit : (after 0x3000 (staging .idle 0x62#8 [true])).map (·.stg) = some (some ⟨0x62#8, [true, false]⟩) := by
  decide
set_option maxRecDepth 8000 in
/-- V7b: the 256th bit. -/
theorem test_ctBit_256th : statusAfter 0x3001 (staging .idle 0x7A#8 (List.replicate 255 true)) = some 0x3001003F#32 := by
  decide
/-- R113, example. -/
theorem test_ctCommit :
    (after 0x4000 { staging .idle 0x62#8 [true] with ct := [(0x61, [false])] }).map (·.ct) =
      some [(0x61, [false]), (0x62, [true])] := by decide
/-- V3b: the duplicate check comes before the conflict check. -/
theorem test_ctCommit_duplicate :
    statusAfter 0x4000 { staging .idle 0x61#8 [false] with ct := [(0x61, [false])] } = some 0x4000005F#32 := by decide
/-- R130, example. -/
theorem test_encStart : statusAfter 0x5000 { State.reset with tailBits := 5#3 } = some 0x00000001#32 := by decide
/-- V18d. -/
theorem test_encStart_twice : statusAfter 0x5000 (inPhase .encHdr) = some 0x50000027#32 := by decide
/-- R131: 0x0A is copied like any byte. -/
theorem test_encHdrb : (after 0x600A (inPhase .encHdr)).map (·.eout) = some [0x0A#8] := by decide
/-- V17. -/
theorem test_encHdrb_late : statusAfter 0x6028 (withAbc .encPay) = some 0x60280027#32 := by decide
/-- R132. -/
theorem test_encHdrend :
    after 0x7000 (inPhase .encHdr) = some { inPhase .encPay with eout := [0x0A#8] } := by decide
/-- V18b. -/
theorem test_encHdrend_open : statusAfter 0x7000 (staging .encHdr 0x61#8 []) = some 0x7000002F#32 := by decide
/-- V12b: the eighth bit completes the byte 5A. -/
theorem test_encSym_completes_a_byte :
    after 0x8062 { withAbc .encPay with pkByte := 0x58#8, pkCnt := 6#3 } =
      some { withAbc .encPay with eout := [0x5A#8] } := by decide
/-- V15. -/
theorem test_encSym_unencodable :
    statusAfter 0x807A { withAbc .encPay with pkByte := 0x40#8, pkCnt := 3#3 } = some 0x807A0077#32 := by decide
/-- R135, example: the bits 0001. -/
theorem test_encEnd :
    after 0x9000 { inPhase .encPay with pkByte := 0x10#8, pkCnt := 4#3 } =
      some { State.reset with eout := [0x10#8], tailBits := 4#3 } := by decide
/-- V13: no padding byte after a whole byte. -/
theorem test_encEnd_whole : after 0x9000 (inPhase .encPay) = some State.reset := by decide
/-- R150, example. -/
theorem test_decStart : statusAfter 0xA000 State.reset = some 0x00000003#32 := by decide
/-- V21. -/
theorem test_decByte_newline : statusAfter 0xB70A (inPhase .decHdr) = some 0x00000004#32 := by decide
/-- V24b: 5A is abcab. -/
theorem test_decByte_payload :
    (after 0xB75A (withAbc .decTbl)).map (·.dsym) = some [0x61#8, 0x62#8, 0x63#8, 0x61#8, 0x62#8] := by decide
/-- V24, its last word: D6 with 7 meaningful bits is cabc. -/
theorem test_decByteLast :
    after 0xBED6 (withAbc .decPay) = some { withAbc .idle with dsym := [0x63#8, 0x61#8, 0x62#8, 0x63#8] } := by decide
/-- P6: the symbols stay and the fault follows. -/
theorem test_decByteLast_premature :
    (after 0xBB58 (withAbc .decTbl)).map (fun t => (status t, t.dsym, t.acc)) =
      some (0xBB580087#32, [0x61#8, 0x62#8], [true]) := by decide
/-- V25b, its last word. -/
theorem test_decEnd_premature : statusAfter 0xC000 { withAbc .decPay with acc := [true] } = some 0xC0000087#32 := by
  decide
/-- V23a, its last word. -/
theorem test_decEnd_in_header : statusAfter 0xC000 (inPhase .decHdr) = some 0xC0000097#32 := by decide
set_option maxRecDepth 8000 in
/-- V27: the overflow drops the bits of the byte. -/
theorem test_decByte_overflow :
    (after 0xB700 { inPhase .decPay with acc := List.replicate 255 true }).map (fun t => (t.acc.length, t.accOvf, t.phase)) =
      some (255, true, .decPay) := by decide
/-- R182, example. -/
theorem test_reservedD : statusAfter 0xD000 State.reset = some 0xD0000017#32 := by decide
/-- V41. -/
theorem test_reservedE : statusAfter 0xE123 State.reset = some 0xE1230017#32 := by decide
/-- V41. -/
theorem test_ill_formed : statusAfter 0xB600 State.reset = some 0xB6000017#32 := by decide
/-- V40. -/
theorem test_nop :
    after 0x0000 { withAbc .encPay with pkByte := 0x40#8, pkCnt := 3#3 } =
      some { withAbc .encPay with pkByte := 0x40#8, pkCnt := 3#3 } := by decide
/-- R181, example, with a byte already on EOUT. -/
theorem test_abort :
    after 0xF000 { withAbc .fault with fcode := .unenc, finfo := 0x8062#16, eout := [0x0A#8] } =
      some { State.reset with eout := [0x0A#8] } := by decide
/-- V42: F001 is not ABORT. -/
theorem test_fault_ignores : after 0xF001 faulted = some faulted := by decide
/-- R230: reset in the middle of DEC_BYTE, after two of its five symbols. -/
theorem test_reset_cuts_short :
    nextOf (step { withAbc .decTbl with input := [.resetDuring 0xB75A#16 2] }) =
      some { State.reset with dsym := [0x61#8, 0x62#8] } := by decide

/-! Witnesses: for each statement with hypotheses, states and operands that meet them, one for each clause and at
the ends of its ranges. -/

/-- The answer is a next state with that property. -/
def leadsTo (o : Host.Outcome State Fault Refusal) (p : State → Bool) : Bool :=
  match o with
  | .next t => p t
  | .fault _ => false
  | .refused _ => false

/-- Both ends of a range of words raise E_ILLCMD after reset and are ignored in phase FAULT. -/
def illEnds (lo hi : Nat) : Bool :=
  statusAfter lo State.reset == some (BitVec.ofNat 32 (lo * 0x10000 + 0x17)) && after lo faulted == some faulted &&
    statusAfter hi State.reset == some (BitVec.ofNat 32 (hi * 0x10000 + 0x17)) && after hi faulted == some faulted

theorem test_witness_illCmdOn :
    [(0x0001, 0x0FFF), (0x1001, 0x1FFF), (0x2100, 0x2FFF), (0x3002, 0x3FFF), (0x4001, 0x4FFF), (0x5001, 0x5FFF),
      (0x6100, 0x6FFF), (0x7001, 0x7FFF), (0x8100, 0x8FFF), (0x9001, 0x9FFF), (0xA001, 0xAFFF), (0xB000, 0xB6FF),
      (0xC001, 0xCFFF), (0xD000, 0xEFFF), (0xF001, 0xFFFF)].all (fun r => illEnds r.1 r.2) = true := by decide

theorem test_witness_DecodeOfEncodeIsTheCommand :
    Instr.abort.wf = true ∧ (Instr.ctOpen 0xFF#8).wf = true ∧ (Instr.decByteLast 1#4 0x00#8).wf = true ∧
      (Instr.decByteLast 8#4 0xFF#8).wf = true ∧ (Instr.reservedE 0xFFF#12).wf = true := by decide

theorem test_witness_EncodeOfDecodeIsTheWord :
    decode 0x0000#16 = .ok .nop ∧ decode 0xB800#16 = .ok (.decByteLast 1#4 0x00#8) ∧
      decode 0xBFFF#16 = .ok (.decByteLast 8#4 0xFF#8) ∧ decode 0xF000#16 = .ok .abort := by decide

/-- The ends of each row whose mask leaves bits free. -/
theorem test_witness_OpcodeTableRowsDecode :
    [(0xFF00, 0x2000, 0x20FF), (0xFFFE, 0x3000, 0x3001), (0xFF00, 0x6000, 0x60FF), (0xFF00, 0x8000, 0x80FF),
      (0xFF00, 0xB700, 0xB7FF), (0xF800, 0xB800, 0xBFFF), (0xF000, 0xD000, 0xDFFF), (0xF000, 0xE000, 0xEFFF)].all
      (fun r => Nat.land r.2.1 r.1 == r.2.1 && Nat.land r.2.2 r.1 == r.2.1) = true := by decide

/-- The words at and just past the ends of the listed ranges. -/
theorem test_witness_WellFormedWordsAreTheListedOnes :
    [0x2000#16, 0x20FF#16, 0x3001#16, 0x6000#16, 0x60FF#16, 0x8000#16, 0x80FF#16, 0xB700#16, 0xB7FF#16, 0xB800#16,
      0xBFFF#16, 0xC000#16, 0xF000#16].all wellFormedWord = true ∧
    [0x0001#16, 0x2100#16, 0x3002#16, 0x6100#16, 0x8100#16, 0xB6FF#16, 0xC001#16, 0xD000#16, 0xEFFF#16,
      0xF001#16].any wellFormedWord = false := by decide

theorem test_witness_IllFormedWordsRaiseIllCmd :
    wellFormedWord 0xB6FF#16 = false ∧ wellFormedWord 0xD000#16 = false ∧ (inPhase .decPay).phase ≠ .fault ∧
      faulted.phase = .fault := by decide

theorem test_witness_ReservedOpcodesRaiseIllCmd : State.reset.phase ≠ .fault ∧ faulted.phase = .fault := by decide

theorem test_witness_StepRunsTheDecodedWord :
    (State.reset.withFetchWord 16 0xBFFF).input = [.word 0xBFFF#16] ∧
      decode 0xBFFF#16 = .ok (.decByteLast 8#4 0xFF#8) ∧
      (State.reset.withFetchWord 16 0xB6FF).input = [.word 0xB6FF#16] ∧
      decode 0xB6FF#16 = .error .partialByteNotLast ∧ State.reset.input = [] := by decide

theorem test_witness_ResetInputClearsAllButTheTraces :
    { withAbc .decTbl with input := [.reset] }.input = [.reset] ∧
      (∃ t, runWord 0xB75A#16 (withAbc .decTbl) = .next t ∧ t.eout = [] ++ [] ∧ t.dhdr = [] ++ [] ∧
        t.dsym = [] ++ [0x61#8, 0x62#8, 0x63#8, 0x61#8, 0x62#8]) := by
  exact ⟨rfl, _, rfl, by decide, by decide, by decide⟩

theorem test_witness_FaultPhaseIgnoresAllButAbort :
    faulted.phase = .fault ∧ 0xF001#16 ≠ 0xF000#16 ∧
      (faulted.withFetchWord 16 0xF001).input = [.word 0xF001#16] := by decide

theorem test_witness_OnlyAbortOrResetLeavesFault :
    leadsTo (step (faulted.withFetchWord 16 0xF000)) (fun t => t.phase != .fault) = true ∧
      leadsTo (step { faulted with input := [.reset] }) (fun t => t.phase != .fault) = true ∧
      leadsTo (step { faulted with input := [.resetDuring 0x8061#16 0] }) (fun t => t.phase != .fault) = true := by
  decide

/-- An imprecise fault, a precise one, and one of DEC_END. -/
theorem test_witness_FaultsArePrecise :
    leadsTo (runWord 0xBB58#16 (withAbc .decTbl)) (fun t => t.phase == .fault) = true ∧
      leadsTo (runWord 0x8061#16 State.reset) (fun t => t.phase == .fault) = true ∧
      leadsTo (exec .decEnd { withAbc .decPay with acc := [true] }) (fun t => t.fcode == .premEnd) = true := by decide

theorem test_witness_TheFaultingWordIsRecorded :
    Reachable State.reset ∧ (State.reset.withFetchWord 16 0x8061).phase ≠ .fault ∧
      leadsTo (step (State.reset.withFetchWord 16 0x8061)) (fun t => t.phase == .fault) = true :=
  ⟨.start [], by decide⟩

theorem test_witness_PhaseChangesAsTheTransitionTableSays :
    leadsTo (exec .decEnd (withAbc .decTbl)) (fun t => t.phase == .idle) = true ∧
      leadsTo (exec (.decByteLast 8#4 0x00#8) (withAbc .decPay)) (fun t => t.phase == .idle) = true ∧
      leadsTo (exec .encHdrend (inPhase .encHdr)) (fun t => t.phase == .encPay) = true ∧
      leadsTo (exec .encEnd State.reset) (fun t => t.phase == .fault && t.fcode == .seq) = true ∧
      leadsTo (exec .encEnd faulted) (fun t => t.phase == .fault) = true ∧
      decode 0x0FFF#16 = .error .mustBeZero ∧
      leadsTo (takeInput .reset faulted) (fun t => t.phase == .idle) = true := by decide

/-- A command and a state for each kind of cell. -/
theorem test_witness_LegalityMatrixHolds :
    (matrixCell .abort).map (· .fault) = some .ok ∧ (matrixCell (.ctOpen 0x61#8)).map (· .idle) = some .okClosed ∧
      (matrixCell .ctCommit).map (· .decTbl) = some .okOpen ∧ (matrixCell .decEnd).map (· .encPay) = some .seq ∧
      (matrixCell (.decByteLast 8#4 0x61#8)).map (· .decHdr) = some .hdrEnd ∧
      (matrixCell (.decByteLast 8#4 0x0A#8)).map (· .decHdr) = some .ok ∧
      (matrixCell .nop).map (· .fault) = some .ign := by decide

theorem test_witness_CtClearEmptiesTheTable :
    (withAbc .decTbl).phase ∈ [Phase.idle, .encHdr, .decHdr, .decTbl] ∧
      (withAbc .decPay).phase ∈ [Phase.encPay, .decPay] ∧ faulted.phase = .fault := by decide

theorem test_witness_CtOpenStartsARecord :
    (State.reset.phase ∈ [Phase.idle, .encHdr, .decHdr, .decTbl] ∧ State.reset.stg = none) ∧
      ((inPhase .encPay).phase ≠ .fault ∧ (inPhase .encPay).phase ∈ [Phase.encPay, .decPay]) ∧
      ((staging .idle 0x61#8 []).phase ≠ .fault ∧ (staging .idle 0x61#8 []).stg ≠ none) ∧ faulted.phase = .fault := by
  decide

/-- A record of no bits, of 254 and of 255, and no record. -/
theorem test_witness_CtBitAppendsOneBit :
    (staging .decTbl 0x61#8 []).stg = some ⟨0x61#8, []⟩ ∧ ([] : Bits).length < 255 ∧
      (List.replicate 254 true).length < 255 ∧
      (staging .idle 0x61#8 (List.replicate 255 true)).stg = some ⟨0x61#8, List.replicate 255 true⟩ ∧
      (List.replicate 255 true).length = 255 ∧
      (State.reset.phase ≠ .fault ∧ State.reset.stg = none) ∧ (inPhase .decPay).phase ∈ [Phase.encPay, .decPay] ∧
      faulted.phase = .fault := by
  refine ⟨rfl, by decide, ?_, rfl, ?_, by decide, by decide, by decide⟩ <;> rw [List.length_replicate]; decide

/-- The table abc with a record staged that is empty, a duplicate, in conflict (extending a path and being extended
by one), and, on the table of a and b alone, one that goes in. -/
theorem test_witness_CtCommitChecksThenWrites :
    (staging .idle 0x64#8 []).stg = some ⟨0x64#8, []⟩ ∧
      (Memory.read abc 0x61 ≠ none ∧ [true, true, true] ≠ ([] : Bits)) ∧ tableOk abc ∧
      (Memory.read abc 0x64 = none ∧ Memory.read abc 0x61 = some [false] ∧ [false] <+: [false, true] ∧
        Memory.read abc 0x62 = some [true, false] ∧ [true] <+: [true, false]) ∧
      (tableOk [(0x61, [false])] ∧ Memory.read [(0x61, [false])] 0x62 = none ∧
        ¬ [false] <+: [true] ∧ ¬ [true] <+: [false]) ∧
      (State.reset.phase ≠ .fault ∧ State.reset.stg = none) ∧ (inPhase .encPay).phase ∈ [Phase.encPay, .decPay] ∧
      faulted.phase = .fault := by decide

theorem test_witness_CtMatchFindsTheOneSymbol : tableOk (withAbc .decPay).ct ∧ tableOk State.reset.ct := by decide

theorem test_witness_TableWritesAreWhole :
    leadsTo (step ((staging .idle 0xFF#8 [true]).withFetchWord 16 0x4000)) (fun t => t.ct != []) = true ∧
      leadsTo (step ((withAbc .idle).withFetchWord 16 0x1000)) (fun t => t.ct != abc) = true ∧
      leadsTo (step ((withAbc .fault).withFetchWord 16 0xF000)) (fun t => t.ct != abc) = true ∧
      leadsTo (step { withAbc .decPay with input := [.reset] }) (fun t => t.ct != abc) = true ∧
      leadsTo (step { withAbc .decPay with input := [.resetDuring 0xB75A#16 1] }) (fun t => t.ct != abc) = true := by
  decide

theorem test_witness_LoadingOrderDoesNotMatter :
    (∀ i ∈ loadRecord (0x61#8, [false]), tableOrNop i = true) ∧ (withAbc .decTbl).Inv ∧ (withAbc .decTbl).phase ∈ [Phase.idle, .encHdr, .decHdr, .decTbl] ∧
      (withAbc .decTbl).stg = none ∧ State.reset.Inv ∧ State.reset.stg = none ∧
      List.Perm [(0x61#8, [false]), (0x62#8, [true])] [(0x62#8, [true]), (0x61#8, [false])] := by
  refine ⟨by decide, by decide, by decide, by decide, by decide, by decide, by decide⟩

theorem test_witness_EncStartOpensASession :
    State.reset.phase = .idle ∧ ((inPhase .encHdr).phase ≠ .idle ∧ (inPhase .encHdr).phase ≠ .fault) ∧
      faulted.phase = .fault := by decide

theorem test_witness_EncHdrbCopiesTheByte :
    (inPhase .encHdr).phase = .encHdr ∧ (State.reset.phase ≠ .encHdr ∧ State.reset.phase ≠ .fault) ∧
      faulted.phase = .fault := by decide

theorem test_witness_EncHdrendWritesTheNewline :
    ((inPhase .encHdr).phase = .encHdr ∧ (inPhase .encHdr).stg = none) ∧
      (State.reset.phase ≠ .fault ∧ State.reset.phase ≠ .encHdr) ∧ (staging .encHdr 0x61#8 []).stg ≠ none ∧
      faulted.phase = .fault := by decide

/-- The first bit of a byte, the seventh, and the eighth, which completes it. -/
theorem test_witness_WriteBitPlacesTheNextBit :
    (∀ k < 8 - State.reset.pkCnt.toNat, State.reset.pkByte.getLsbD k = false) ∧ State.reset.pkCnt ≠ 7#3 ∧ { State.reset with pkCnt := 6#3 }.pkCnt ≠ 7#3 ∧
      { State.reset with pkCnt := 7#3 }.pkCnt = 7#3 := by decide

theorem test_witness_EncSymPacksThePath :
    ((withAbc .encPay).phase = .encPay ∧ (withAbc .encPay).ct.read 0x63 = some [true, true] ∧
        (withAbc .encPay).ct.read 0x64 = none) ∧
      (State.reset.phase ≠ .encPay ∧ State.reset.phase ≠ .fault) ∧ faulted.phase = .fault := by decide

theorem test_witness_EncEndFlushesThePacker :
    (inPhase .encPay).phase = .encPay ∧ (inPhase .encPay).pkCnt = 0#3 ∧
      { inPhase .encPay with pkCnt := 7#3 }.pkCnt ≠ 0#3 ∧
      (State.reset.phase ≠ .encPay ∧ State.reset.phase ≠ .fault) ∧ faulted.phase = .fault := by decide

/-- The shortest session, of no symbols, and one with a NOP between its commands. -/
theorem test_witness_EncodeSessionWritesTheFile :
    leadsTo (execList ([.encStart] ++ [.encHdrend]) State.reset) (fun t => t.ct == []) = true ∧
    [Instr.encStart, .encHdrend, .encEnd] = [.encStart] ++ .encHdrend :: [.encEnd] ∧
    encodeSession [] [] [.encStart, .encHdrend, .encEnd] ∧
      leadsTo (execList [.encStart, .encHdrend, .encEnd] State.reset) (fun t => t.phase != .fault) = true ∧
      encodeSession [0x41#8] [0x63#8] [.encStart, .encHdrb 0x41#8, .nop, .encHdrend, .encSym 0x63#8, .encEnd] ∧
      leadsTo (execList [.encStart, .encHdrb 0x41#8, .nop, .encHdrend, .encSym 0x63#8, .encEnd] (withAbc .idle))
        (fun t => t.phase != .fault && t.eout == [0x41#8, 0x0A#8, 0xC0#8]) = true := by
  simp only [encodeSession]
  decide

theorem test_witness_DecStartOpensASession :
    State.reset.phase = .idle ∧ ((inPhase .decHdr).phase ≠ .idle ∧ (inPhase .decHdr).phase ≠ .fault) ∧
      faulted.phase = .fault := by decide

theorem test_witness_DecByteDeliversTheHeader :
    (inPhase .decHdr).phase = .decHdr ∧ 0x09#8 ≠ 0x0A#8 ∧ 0x0B#8 ≠ 0x0A#8 := by decide

theorem test_witness_DecByteFeedsThePayload :
    (inPhase .decHdr).phase = .decHdr ∧ (withAbc .decPay).phase = .decPay ∧
      ((withAbc .decTbl).phase = .decTbl ∧ (withAbc .decTbl).stg = none) ∧
      (1 ≤ (1#4).toNat ∧ (8#4).toNat ≤ 8) ∧
      (([(0x80#8).getLsbD 7].foldl feed (withAbc .decPay)).acc ≠ [] ∧
        ([(0x00#8).getLsbD 7].foldl feed (withAbc .decPay)).acc = []) ∧
      State.reset.phase ∈ [Phase.idle, .encHdr, .encPay] ∧
      ((staging .decTbl 0x61#8 []).phase = .decTbl ∧ (staging .decTbl 0x61#8 []).stg ≠ none) ∧
      faulted.phase = .fault := by decide

theorem test_witness_DecByteFrame :
    leadsTo (exec (.decByte 0x5A#8) (withAbc .decTbl)) (fun t => t.dsym.length == 5) = true ∧
      leadsTo (exec (.decByteLast 1#4 0x00#8) (withAbc .decPay)) (fun t => t.dsym.length == 1) = true := by decide

/-- A table in which a bit makes a match, one in which it does not, a full accumulator, and an overflowed one. -/
theorem test_witness_FeedAccumulatesAndMatches :
    tableOk (withAbc .decPay).ct ∧
      ((withAbc .decPay).accOvf = false ∧ (withAbc .decPay).acc.length < 255 ∧
        (withAbc .decPay).ct.read 0x61 = some ((withAbc .decPay).acc ++ [false])) ∧
      (tableOk State.reset.ct ∧ ∀ sym : Byte, State.reset.ct.read sym.toNat ≠ some (State.reset.acc ++ [true])) ∧
      ({ State.reset with acc := List.replicate 254 true }.acc.length < 255 ∧
        { State.reset with acc := List.replicate 255 true }.acc.length = 255) ∧
      { State.reset with accOvf := true }.accOvf = true := by
  refine ⟨by decide, by decide, ⟨by decide, ?_⟩, ?_, rfl⟩
  · intro sym h; cases h
  · simp only [List.length_replicate]; decide

theorem test_witness_DecEndEndsTheBits :
    { withAbc .decPay with acc := [true] }.acc ≠ [] ∧ (withAbc .decPay).acc = [] ∧
      ((withAbc .decTbl).phase = .decTbl ∧ (withAbc .decTbl).stg = none) ∧ (inPhase .decHdr).phase = .decHdr ∧
      State.reset.phase ∈ [Phase.idle, .encHdr, .encPay] ∧ (staging .decTbl 0x61#8 []).stg ≠ none ∧
      faulted.phase = .fault := by decide

/-- V28: D6 and D7 agree in their first seven bits, and the session completes; with one bit, 80 and FF fault. -/
theorem test_witness_PaddingBitsAreNotExamined :
    (withAbc .decPay).phase ≠ .decHdr ∧ topBits 7 0xD6#8 = topBits 7 0xD7#8 ∧
      leadsTo (exec (.decByteLast 7#4 0xD6#8) (withAbc .decPay)) (fun t => t.phase == .idle) = true ∧
      leadsTo (exec (.decByteLast 7#4 0xD7#8) (withAbc .decPay)) (fun t => t.phase == .idle) = true ∧
      topBits 1 0x80#8 = topBits 1 0xFF#8 ∧
      leadsTo (exec (.decByteLast 1#4 0x80#8) (withAbc .decPay)) (fun t => t.finfo == 0xB880#16) = true ∧
      leadsTo (exec (.decByteLast 1#4 0xFF#8) (withAbc .decPay)) (fun t => t.finfo == 0xB8FF#16) = true := by decide

theorem test_witness_AccumulatorRefinesTheUnboundedString :
    { State.reset with accOvf := true }.accOvf = true ∧ tableOk (withAbc .decPay).ct ∧ (withAbc .decPay).accOvf = false ∧ (withAbc .decPay).acc.length ≤ 255 ∧
      { State.reset with acc := List.replicate 255 true }.acc.length ≤ 255 := by
  refine ⟨rfl, by decide, by decide, by decide, ?_⟩
  simp only [List.length_replicate]; decide

theorem test_witness_TreeWalkIsEquivalent :
    tableOk (withAbc .decPay).ct ∧ (withAbc .decPay).accOvf = false ∧ (withAbc .decPay).acc = [] := by decide

/-- A header of no bytes and a table of no commands over abc; last bytes of 1 and 8 bits, and DEC_END. -/
theorem test_witness_DecodeSessionEmitsTheSymbols :
    (withAbc .idle).Inv ∧ (withAbc .idle).phase = .idle ∧ 0x0A#8 ∉ ([] : List Byte) ∧
      execList [.decStart, .decByte 0x0A#8] (withAbc .idle) = .next (withAbc .decTbl) ∧
      (withAbc .decTbl).phase = .decTbl ∧ (withAbc .decTbl).stg = none ∧
      (1 ≤ (1#4).toNat ∧ (8#4).toNat ≤ 8) ∧ streamBits [] = codeBits abc [] ∧
      topBits 1 0x00#8 = codeBits abc [0x61#8] ∧ abc.read 0x61 ≠ none := by
  refine ⟨by decide, by decide, by decide, rfl, ?_⟩
  decide

/-- Bits that no list of symbols gives: a 1 with the empty table. -/
theorem test_witness_DecodeSession_undecodable :
    State.reset.Inv ∧ (inPhase .decTbl).stg = none ∧
      ∀ syms : List Byte, (∀ x ∈ syms, (inPhase .decTbl).ct.read x.toNat ≠ none) →
        topBits 1 0x80#8 ≠ codeBits (inPhase .decTbl).ct syms := by
  refine ⟨by decide, by decide, fun syms h => ?_⟩
  cases syms with
  | nil => decide
  | cons x _ => exact absurd rfl (h x (by simp))

/-- The file 0A C0 of the symbol c. -/
theorem test_witness_EncodeThenDecodeRoundTrips :
    (withAbc .idle).phase = .idle ∧ encodeSession [] [0x63#8] [.encStart, .encHdrend, .encSym 0x63#8, .encEnd] ∧
      (∃ t, execList [.encStart, .encHdrend, .encSym 0x63#8, .encEnd] (withAbc .idle) = .next t ∧ t.phase ≠ .fault ∧
        t.eout = (withAbc .idle).eout ++ [0x0A#8, 0xC0#8] ∧ t.ct = abc) ∧
      0x0A#8 ∉ ([] : List Byte) ∧ (withAbc .idle).Inv ∧
      execList [.decStart, .decByte 0x0A#8] (withAbc .idle) = .next (withAbc .decTbl) ∧
      (withAbc .decTbl).phase = .decTbl ∧ (withAbc .decTbl).stg = none ∧ (withAbc .decTbl).ct = abc := by
  refine ⟨by decide, ?_, ⟨_, rfl, by decide⟩, by decide, by decide, rfl, by decide⟩
  simp only [encodeSession]
  decide

theorem test_witness_TableIsFrozenInPayloadPhases :
    (withAbc .encPay).phase = .encPay ∧ (withAbc .decPay).phase = .decPay ∧ 0x1000#16 ≠ 0xF000#16 ∧
      leadsTo (runWord 0x1000#16 (withAbc .encPay)) (fun t => t.ct == abc) = true ∧
      tableOrNop .ctClear = true ∧ Instr.ctClear ≠ .nop := by decide

theorem test_witness_TracesOnlyGrow :
    leadsTo (step ((inPhase .encHdr).withFetchWord 16 0x6028)) (fun t => t.eout == [0x28#8]) = true := by decide

theorem test_witness_StagingOpensAndClosesByItsCommands :
    leadsTo (step (State.reset.withFetchWord 16 0x2061)) (fun t => t.stg.isSome) = true ∧
      leadsTo (step ((staging .idle 0x61#8 [true]).withFetchWord 16 0x4000)) (fun t => !t.stg.isSome) = true ∧
      leadsTo (step ((staging .idle 0x61#8 [true]).withFetchWord 16 0x1000)) (fun t => !t.stg.isSome) = true ∧
      leadsTo (step ((staging .fault 0x61#8 [true]).withFetchWord 16 0xF000)) (fun t => !t.stg.isSome) = true ∧
      leadsTo (step { staging .idle 0x61#8 [true] with input := [.reset] }) (fun t => !t.stg.isSome) = true := by
  decide

/-- Reset, ENC_START and ENC_HDREND reach a payload phase. -/
theorem test_witness_reachable_payload : ∃ s, Reachable s ∧ s.phase = .encPay :=
  ⟨_, .step _ _ (.step _ _ (.start [.word 0x5000#16, .word 0x7000#16]) rfl) rfl, by decide⟩

theorem test_witness_EachElementIsWrittenByItsCommands :
    leadsTo (exec .decEnd (withAbc .decPay)) (fun t => t.phase != .decPay) = true ∧
      leadsTo (exec (.ctOpen 0x61#8) (inPhase .encPay)) (fun t => t.phase == .fault) = true ∧
      leadsTo (exec .encStart { State.reset with tailBits := 7#3 }) (fun t => t.tailBits != 7#3) = true ∧
      leadsTo (exec (.encSym 0x63#8) (withAbc .encPay)) (fun t => t.pkCnt != 0#3) = true ∧
      leadsTo (exec (.decByte 0x55#8) (withAbc .decPay)) (fun t => t.acc != [] && t.dsym != []) = true ∧
      leadsTo (exec (.decByte 0x28#8) (inPhase .decHdr)) (fun t => t.dhdr != []) = true ∧
      leadsTo (exec .ctCommit (staging .idle 0x00#8 [true])) (fun t => t.ct != [] && t.stg == none) = true ∧
      leadsTo (exec .encHdrend (inPhase .encHdr)) (fun t => t.eout != []) = true ∧
      leadsTo (exec .encEnd State.reset) (fun t => t.fcode != .noFault && t.finfo != 0#16) = true := by decide

theorem test_witness_EveryStepKeepsTheInvariant :
    State.Inv ((withAbc .decPay).withFetchWord 16 0xB75A) ∧ (withAbc .decPay).Inv ∧
      leadsTo (step ((withAbc .decPay).withFetchWord 16 0xB75A)) (fun t => t.dsym.length == 5) = true := by
  refine ⟨by decide, by decide, by decide⟩

/-- The load of one record reaches a table with an entry. -/
theorem test_witness_ReachableTablesArePrefixFree :
    ∃ s, Reachable s ∧ s.ct.read (0x61#8).toNat = some [false] :=
  ⟨_, .step _ _ (.step _ _ (.step _ _ (.start [.word 0x2061#16, .word 0x3000#16, .word 0x4000#16]) rfl) rfl) rfl,
    by decide⟩

/-- A state of DEC_PAY with a bit accumulated is reachable. -/
theorem test_witness_ReachableAccumulatorsAreUnmatched :
    ∃ s, Reachable s ∧ s.phase = .decPay ∧ s.accOvf = false ∧ s.acc.length = 8 :=
  ⟨_, .step _ _ (.step _ _ (.step _ _ (.start [.word 0xA000#16, .word 0xB70A#16, .word 0xB700#16]) rfl) rfl) rfl,
    by decide⟩

/-- A state after reset that faults on its next word, and the end of V15 in FAULT, then with ABORT. -/
theorem test_witness_ReachablePackersHoldOnlyWaitingBits :
    (∃ s, Reachable s ∧ s.Inv ∧ s.phase ≠ .encPay ∧ s.phase ≠ .fault ∧
      leadsTo (step s) (fun t => t.phase == .fault) = true) ∧
      leadsTo (step ({ faulted with pkByte := 0x40#8, pkCnt := 3#3 }.withFetchWord 16 0x9000))
        (fun t => t.phase == .fault && t.pkCnt == 3#3) = true ∧
      leadsTo (step ({ faulted with pkByte := 0x40#8, pkCnt := 3#3 }.withFetchWord 16 0xF000))
        (fun t => t.phase != .fault && t.pkCnt == 0#3) = true :=
  ⟨⟨_, .start [.word 0x8061#16], by decide, by decide, by decide, by decide⟩, by decide⟩

/-- V15: E_UNENC keeps the three bits that wait in the packer, 40. -/
theorem test_packer_kept_in_fault :
    (after 0x807A { withAbc .encPay with pkByte := 0x40#8, pkCnt := 3#3 }).map (fun t => (t.phase, t.pkCnt, t.pkByte)) =
      some (.fault, 3#3, 0x40#8) := by decide

end Sys2Proof.Tests
end

/-! PROOFS for the statements of 00_scope.md: runs of commands that end outside phase FAULT, the table commands that a
session may interleave, the encode session, the decode session, and the settled statements. -/

namespace Sys2Proof.Machine

/-! Every command answers a next state, and a run outside FAULT takes each of its commands outside FAULT. -/

/-- Each arm of exec is a next state (R9, R11). -/
theorem exec_answers (i : Instr) (s : State) : ∃ t, exec i s = .next t := by
  cases i <;> exact ⟨_, rfl⟩

theorem runWord_answers (w : CmdWord) (s : State) : ∃ t, runWord w s = .next t := by
  rcases runWord_cases w s with ⟨i, -, h⟩ | ⟨e, -, h⟩
  · rw [h]; exact exec_answers i s
  · exact ⟨_, h⟩

theorem takeInput_answers (x : Input) (s : State) : ∃ t, takeInput x s = .next t := by
  cases x with
  | word w => exact runWord_answers w s
  | reset => exact ⟨_, rfl⟩
  | resetDuring w n =>
    obtain ⟨t, h⟩ := runWord_answers w s
    exact ⟨cutShort n s t, by simp [takeInput, h]⟩

/-- With no input the block waits (R230). -/
theorem step_of_no_input {s : State} (h : s.input = []) : step s = .next s := by
  simp [step, fetchInput, h]

/-- A step takes the first of the inputs to come (R9). -/
theorem step_of_input {s : State} {x : Input} {rest : List Input} (h : s.input = x :: rest) :
    step s = takeInput x { s with input := rest } := by
  simp [step, fetchInput, h]

theorem step_answers (s : State) : ∃ t, step s = .next t := by
  cases h : s.input with
  | nil => exact ⟨s, step_of_no_input h⟩
  | cons x rest => rw [step_of_input h]; exact takeInput_answers _ _

/-- A command that is legal where it is given runs its own rule (R88). -/
theorem guarded_of_legal {s : State} (w : CmdWord) {legal : Bool} (body : State → State) (hf : s.phase ≠ .fault)
    (hl : legal = true) : guarded w legal body s = body s := by
  simp [guarded, hf, hl]

/-- Phase FAULT ignores a guarded command (R204). -/
theorem guarded_of_fault {s : State} (w : CmdWord) (legal : Bool) (body : State → State) (hf : s.phase = .fault) :
    guarded w legal body s = s := by
  simp [guarded, hf]

theorem illFormed_of_fault {s : State} (w : CmdWord) (hf : s.phase = .fault) : illFormed w s = s := by
  simp [illFormed, hf]

/-- Phase FAULT ignores every command but ABORT (R204). -/
theorem exec_of_fault {s : State} {i : Instr} (hf : s.phase = .fault) (hi : i ≠ .abort) : exec i s = .next s := by
  cases i with
  | nop => rfl
  | abort => exact absurd rfl hi
  | reservedD | reservedE => exact congrArg _ (illFormed_of_fault _ hf)
  | _ => exact congrArg _ (guarded_of_fault _ _ _ hf)

theorem execList_of_fault {is : List Instr} {s : State} (hf : s.phase = .fault) (ha : .abort ∉ is) :
    execList is s = .next s := by
  induction is with
  | nil => rfl
  | cons i is ih =>
    obtain ⟨hi, his⟩ := not_or.1 (mt List.mem_cons.2 ha)
    rw [execList_cons (exec_of_fault hf (Ne.symm hi)), ih his]

/-- The commands, none of them ABORT, lead from s to t, and t is outside phase FAULT. -/
def Completes (is : List Instr) (s t : State) : Prop :=
  .abort ∉ is ∧ execList is s = .next t ∧ t.phase ≠ .fault

/-- Phase FAULT is never left without ABORT (R205), so a run that ends outside it starts outside it. -/
theorem Completes.phase_ne_fault {is : List Instr} {s t : State} (h : Completes is s t) : s.phase ≠ .fault := by
  obtain ⟨ha, hr, hp⟩ := h
  intro hf
  rw [execList_of_fault hf ha] at hr
  cases hr
  exact hp hf

theorem Completes.nil_iff {s t : State} : Completes [] s t ↔ t = s ∧ s.phase ≠ .fault := by
  constructor
  · rintro ⟨-, hr, hp⟩
    cases hr
    exact ⟨rfl, hp⟩
  · rintro ⟨rfl, hp⟩
    exact ⟨by simp, rfl, hp⟩

theorem Completes.cons {i : Instr} {is : List Instr} {s t : State} (h : Completes (i :: is) s t) :
    ∃ m, exec i s = .next m ∧ m.phase ≠ .fault ∧ Completes is m t := by
  obtain ⟨ha, hr, hp⟩ := h
  obtain ⟨m, hm⟩ := exec_answers i s
  rw [execList_cons hm] at hr
  have hc : Completes is m t := ⟨fun h => ha (.tail _ h), hr, hp⟩
  exact ⟨m, hm, hc.phase_ne_fault, hc⟩

theorem Completes.append {is js : List Instr} {s t : State} (h : Completes (is ++ js) s t) :
    ∃ m, Completes is s m ∧ Completes js m t := by
  induction is generalizing s with
  | nil => exact ⟨s, Completes.nil_iff.2 ⟨rfl, h.phase_ne_fault⟩, h⟩
  | cons i is ih =>
    obtain ⟨n, hn, -, hc⟩ := h.cons
    obtain ⟨m, ⟨_, hr, hp⟩, hm⟩ := ih hc
    refine ⟨m, ⟨fun hm => h.1 (List.mem_append_left js hm), ?_, hp⟩, hm⟩
    rw [execList_cons hn, hr]

/-! The table commands and NOP (40_table_commands.md). -/

/-- What a table command that does not fault writes (R110 to R113). -/
inductive TableWrite (s : State) : State → Prop where
  | clear : TableWrite s { s with ct := [], stg := none }
  | opened (sym : Byte) : TableWrite s { s with stg := some ⟨sym, []⟩ }
  | bit (r : Staged) (b : Bool) : s.stg = some r → r.path.length < 255 →
      TableWrite s { s with stg := some ⟨r.sym, r.path ++ [b]⟩ }
  | commit (r : Staged) : s.stg = some r → r.path ≠ [] → ctRead s r.sym = none →
      (∀ e ∈ s.ct, conflict e.2 r.path = false) →
      TableWrite s { s with ct := s.ct.write r.sym.toNat r.path, stg := none }

/-- A guarded command keeps to these outcomes when its own rule does and it is legal in the table phases only. -/
theorem guarded_tableWrite {w : CmdWord} {legal : Bool} {body : State → State} {s t : State}
    (h : Host.Outcome.next (guarded w legal body s) = (.next t : Host.Outcome State Fault Refusal))
    (hl : legal = true → tablePhase s = true)
    (hb : body s = s ∨ (∃ f, body s = raiseFault f w s) ∨ TableWrite s (body s)) :
    t = s ∨ (∃ f, t = raiseFault f w s) ∨ (tablePhase s = true ∧ TableWrite s t) := by
  obtain rfl := Host.Outcome.next.inj h
  rcases guarded_cases w legal body s with ⟨-, he⟩ | ⟨-, hlegal, he⟩ | ⟨-, -, he⟩ <;> rw [he]
  · exact .inl rfl
  · exact hb.imp_right (Or.imp_right fun hw => ⟨hl hlegal, hw⟩)
  · exact .inr (.inl ⟨_, rfl⟩)

/-- A table command or NOP is without effect, faults, or writes the table or the staging register, which it does
only in the table phases (R115). -/
theorem exec_tableOrNop_cases {i : Instr} {s t : State} (hi : tableOrNop i = true) (h : exec i s = .next t) :
    t = s ∨ (∃ f, t = raiseFault f (encode i) s) ∨ (tablePhase s = true ∧ TableWrite s t) := by
  cases i with
  | nop => cases h; exact .inl rfl
  | ctClear => exact guarded_tableWrite h id (.inr (.inr .clear))
  | ctOpen byte =>
    exact guarded_tableWrite h (fun hl => (Bool.and_eq_true_iff.1 hl).1) (.inr (.inr (.opened byte)))
  | ctBit b =>
    refine guarded_tableWrite h (fun hl => (Bool.and_eq_true_iff.1 hl).1) ?_
    rcases stageBit_cases (encode (.ctBit b)) b s with ⟨-, he⟩ | ⟨r, hr, ⟨-, he⟩ | ⟨hlt, he⟩⟩ <;> rw [he]
    · exact .inl rfl
    · exact .inr (.inl ⟨_, rfl⟩)
    · exact .inr (.inr (.bit r b hr hlt))
  | ctCommit =>
    refine guarded_tableWrite h (fun hl => (Bool.and_eq_true_iff.1 hl).1) ?_
    rcases commitStaged_cases (encode .ctCommit) s with
      ⟨-, he⟩ | ⟨r, hr, ⟨-, he⟩ | ⟨-, -, he⟩ | ⟨-, -, -, he⟩ | ⟨hne, hnew, hc, he⟩⟩ <;> rw [he]
    · exact .inl rfl
    · exact .inr (.inl ⟨_, rfl⟩)
    · exact .inr (.inl ⟨_, rfl⟩)
    · exact .inr (.inl ⟨_, rfl⟩)
    · exact .inr (.inr (.commit r hr hne hnew hc))
  | _ => cases hi

/-- A table command that ends outside FAULT changes the table and the staging register only. -/
theorem exec_tableOrNop_frame {i : Instr} {s t : State} (hi : tableOrNop i = true) (h : exec i s = .next t)
    (hp : t.phase ≠ .fault) : t = { s with ct := t.ct, stg := t.stg } := by
  rcases exec_tableOrNop_cases hi h with rfl | ⟨f, rfl⟩ | ⟨-, hw⟩
  · rfl
  · exact absurd rfl hp
  · cases hw <;> rfl

/-- In a payload phase a table command that does not fault has no effect (R63). -/
theorem exec_tableOrNop_payload {i : Instr} {s t : State} (hi : tableOrNop i = true) (h : exec i s = .next t)
    (hp : t.phase ≠ .fault) (hs : tablePhase s = false) : t = s := by
  rcases exec_tableOrNop_cases hi h with rfl | ⟨f, rfl⟩ | ⟨htab, -⟩
  · rfl
  · exact absurd rfl hp
  · simp [hs] at htab

/-- Two paths conflict exactly when one begins the other (R114). -/
theorem conflict_iff (p q : Bits) : conflict p q = true ↔ p <+: q ∨ q <+: p := by
  have start : ∀ {a b : Bits}, a.length ≤ b.length →
      (a.take (min a.length b.length) = b.take (min a.length b.length) ↔ a <+: b) := by
    intro a b hl
    rw [Nat.min_eq_left hl, List.take_length, List.prefix_iff_eq_take]
  rw [conflict, beq_iff_eq]
  rcases Nat.le_total p.length q.length with hl | hl
  · rw [start hl]
    exact ⟨.inl, fun h => h.elim id fun h => h.eq_of_length_le hl ▸ List.prefix_rfl⟩
  · rw [Nat.min_comm, eq_comm, start hl]
    exact ⟨.inr, fun h => h.elim (fun h => h.eq_of_length_le hl ▸ List.prefix_rfl) id⟩

/-- The table is as R26 says, and the staged path fits a table entry. -/
def TableSound (s : State) : Prop :=
  tableOk s.ct ∧ ∀ r, s.stg = some r → r.path.length ≤ 255

theorem State.Inv.tableSound {s : State} (h : s.Inv) : TableSound s := by
  obtain ⟨-, htab, ⟨hlen, -⟩, -, -⟩ := h
  exact ⟨htab, fun r hr => by simpa [hr] using hlen⟩

theorem TableWrite.keeps_tableSound {s t : State} (hs : TableSound s) (h : TableWrite s t) : TableSound t := by
  obtain ⟨htab, hstg⟩ := hs
  cases h with
  | clear => exact ⟨⟨nil_wf, .nil⟩, by simp⟩
  | opened sym => exact ⟨htab, by simp⟩
  | bit r b hr hlt => exact ⟨htab, by rintro _ ⟨⟩; simpa using hlt⟩
  | commit r hr hne hnew hc =>
    refine ⟨write_tableOk htab _ _ (List.length_pos_iff.2 hne) (hstg r hr) fun e he => ?_, by simp⟩
    have := mt (conflict_iff e.2 r.path).2 (by simp [hc e he])
    exact not_or.1 this

theorem exec_tableOrNop_tableSound {i : Instr} {s t : State} (hi : tableOrNop i = true) (hs : TableSound s)
    (h : exec i s = .next t) : TableSound t := by
  rcases exec_tableOrNop_cases hi h with rfl | ⟨f, rfl⟩ | ⟨-, hw⟩
  · exact hs
  · exact hs
  · exact hw.keeps_tableSound hs

/-- A run of table commands that ends outside FAULT changes the table and the staging register only, and keeps the
table as R26 says. -/
theorem Completes.tableCommands {is : List Instr} {s t : State} (h : Completes is s t)
    (his : ∀ i ∈ is, tableOrNop i = true) :
    t = { s with ct := t.ct, stg := t.stg } ∧ (TableSound s → TableSound t) := by
  induction is generalizing s with
  | nil => obtain ⟨rfl, -⟩ := Completes.nil_iff.1 h; exact ⟨rfl, id⟩
  | cons i is ih =>
    obtain ⟨hi, his⟩ := List.forall_mem_cons.1 his
    obtain ⟨m, hm, hp, hc⟩ := h.cons
    obtain ⟨ht, hsound⟩ := ih hc his
    refine ⟨?_, fun hs => hsound (exec_tableOrNop_tableSound hi hs hm)⟩
    rw [ht, exec_tableOrNop_frame hi hm hp]

/-! The encoder's commands in their phases (41_encoder_commands.md). -/

theorem exec_encStart {s : State} (h : s.phase = .idle) :
    exec .encStart s = .next { s with phase := .encHdr, pkByte := 0#8, pkCnt := 0#3, tailBits := 0#3 } :=
  congrArg _ (guarded_of_legal _ _ (by simp [h]) (by simp [h]))

theorem exec_encHdrb {s : State} (byte : Byte) (h : s.phase = .encHdr) :
    exec (.encHdrb byte) s = .next { s with eout := s.eout ++ [byte] } :=
  congrArg _ (guarded_of_legal _ _ (by simp [h]) (by simp [h]))

/-- ENC_HDREND ends the header line, where it does not fault on an unfinished record (R132). -/
theorem exec_encHdrend {s t : State} (h : s.phase = .encHdr) (he : exec .encHdrend s = .next t)
    (ht : t.phase ≠ .fault) : t = { s with eout := s.eout ++ [0x0A#8], phase := .encPay } := by
  obtain rfl := Host.Outcome.next.inj he
  rcases guarded_cases (encode .encHdrend) (s.phase == .encHdr && !stgOpen s)
    (fun s => { emitEout Config.nl s with phase := .encPay }) s with ⟨hf, -⟩ | ⟨-, -, hg⟩ | ⟨-, -, hg⟩
  · simp [h] at hf
  · rw [hg]; rfl
  · rw [hg] at ht; exact absurd rfl ht

/-- ENC_SYM codes a symbol of the table, where it does not fault (R133). -/
theorem exec_encSym {s t : State} {byte : Byte} (h : s.phase = .encPay) (he : exec (.encSym byte) s = .next t)
    (ht : t.phase ≠ .fault) : ∃ p, s.ct.read byte.toNat = some p ∧ t = writeBits s p := by
  have hlegal : (s.phase == .encPay) = true := by simp [h]
  have hg := guarded_of_legal (s := s) (encode (.encSym byte)) (packSymbol (encode (.encSym byte)) byte)
    (by simp [h]) hlegal
  obtain rfl := hg.symm.trans (Host.Outcome.next.inj he)
  rcases packSymbol_cases (encode (.encSym byte)) byte s with ⟨-, hg⟩ | ⟨p, hp, hg⟩
  · rw [hg] at ht; exact absurd rfl ht
  · exact ⟨p, hp, hg⟩

theorem exec_encEnd {s : State} (h : s.phase = .encPay) : exec .encEnd s = .next (flushPacker s) :=
  congrArg _ (guarded_of_legal _ _ (by simp [h]) (by simp [h]))

theorem writeBits_append (s : State) (p q : Bits) : writeBits s (p ++ q) = writeBits (writeBits s p) q :=
  List.foldl_append

@[simp] theorem writeBits_phase (s : State) (p : Bits) : (writeBits s p).phase = s.phase := by
  obtain ⟨out, -, -, h⟩ := writeBits_spec s p
  rw [h]

@[simp] theorem writeBits_ct (s : State) (p : Bits) : (writeBits s p).ct = s.ct := by
  obtain ⟨out, -, -, h⟩ := writeBits_spec s p
  rw [h]

theorem codeBits_cons {m : Memory} {x : Byte} {p : Bits} (xs : List Byte) (h : m.read x.toNat = some p) :
    codeBits m (x :: xs) = p ++ codeBits m xs := by
  simp [codeBits, h]

/-! The encode session (R136). -/

/-- An encode session's commands, with the places of its three single commands shown. -/
theorem encodeSession_split {hdr syms : List Byte} {cmds : List Instr} (h : encodeSession hdr syms cmds) :
    .abort ∉ cmds ∧ ∃ head body, cmds = .encStart :: (head ++ .encHdrend :: (body ++ [.encEnd])) ∧
      head.filter (fun i => !tableOrNop i) = hdr.map Instr.encHdrb ∧
      body.filter (fun i => !tableOrNop i) = syms.map Instr.encSym := by
  obtain ⟨hfilter, hhead, hlast⟩ := h
  refine ⟨fun ha => ?_, ?_⟩
  · have : Instr.abort ∈ cmds.filter (fun i => !tableOrNop i) := List.mem_filter.2 ⟨ha, rfl⟩
    simp [hfilter] at this
  · obtain ⟨rest, rfl⟩ := List.head?_eq_some_iff.1 hhead
    obtain ⟨mid, hmid⟩ := List.getLast?_eq_some_iff.1 hlast
    cases mid with
    | nil => simp at hmid
    | cons j mid =>
      rw [List.cons_append] at hmid
      obtain ⟨rfl, rfl⟩ := List.cons.inj hmid
      have hmid : mid.filter (fun i => !tableOrNop i) =
          hdr.map Instr.encHdrb ++ .encHdrend :: syms.map Instr.encSym := by
        have hrest := (List.cons.inj hfilter).2
        rw [List.filter_append] at hrest
        exact List.append_cancel_right (hrest.trans (List.append_assoc _ (_ :: _) [_]).symm)
      obtain ⟨h₁, rest, rfl, hh₁, hrest⟩ := List.filter_eq_append_iff.1 hmid
      obtain ⟨h₂, body, rfl, hh₂, -, hbody⟩ := List.filter_eq_cons_iff.1 hrest
      refine ⟨h₁ ++ h₂, body, by simp, ?_, hbody⟩
      rw [List.filter_append, hh₁, List.filter_eq_nil_iff.2 hh₂, List.append_nil]

/-- The header part copies its text and may load the table (R131). -/
theorem Completes.encodeHeader {is : List Instr} {hdr : List Byte} {s t : State} (h : Completes is s t)
    (hs : s.phase = .encHdr) (hf : is.filter (fun i => !tableOrNop i) = hdr.map Instr.encHdrb) :
    t = { s with eout := s.eout ++ hdr, ct := t.ct, stg := t.stg } := by
  induction is generalizing hdr s with
  | nil =>
    obtain ⟨rfl, -⟩ := Completes.nil_iff.1 h
    obtain rfl := List.map_eq_nil_iff.1 hf.symm
    simp
  | cons i is ih =>
    obtain ⟨m, hm, hp, hc⟩ := h.cons
    cases hi : tableOrNop i with
    | true =>
      have hframe := exec_tableOrNop_frame hi hm hp
      rw [List.filter_cons_of_neg (by simp [hi])] at hf
      rw [ih hc (by rw [hframe]; exact hs) hf, hframe]
    | false =>
      rw [List.filter_cons_of_pos (by simp [hi])] at hf
      obtain ⟨x, xs, rfl, rfl, hxs⟩ := List.map_eq_cons_iff.1 hf.symm
      rw [exec_encHdrb x hs] at hm
      cases hm
      rw [ih hc hs hxs.symm]
      simp

/-- The payload part codes its symbols, all of which the table holds, and leaves the table as it is (R63, R133). -/
theorem Completes.encodePayload {is : List Instr} {syms : List Byte} {s t : State} (h : Completes is s t)
    (hs : s.phase = .encPay) (hf : is.filter (fun i => !tableOrNop i) = syms.map Instr.encSym) :
    (∀ x ∈ syms, s.ct.read x.toNat ≠ none) ∧ t = writeBits s (codeBits s.ct syms) := by
  induction is generalizing syms s with
  | nil =>
    obtain ⟨rfl, -⟩ := Completes.nil_iff.1 h
    obtain rfl := List.map_eq_nil_iff.1 hf.symm
    exact ⟨by simp, rfl⟩
  | cons i is ih =>
    obtain ⟨m, hm, hp, hc⟩ := h.cons
    cases hi : tableOrNop i with
    | true =>
      obtain rfl := exec_tableOrNop_payload hi hm hp (by simp [tablePhase, hs])
      rw [List.filter_cons_of_neg (by simp [hi])] at hf
      exact ih hc hs hf
    | false =>
      rw [List.filter_cons_of_pos (by simp [hi])] at hf
      obtain ⟨x, xs, rfl, rfl, hxs⟩ := List.map_eq_cons_iff.1 hf.symm
      obtain ⟨p, hread, rfl⟩ := exec_encSym hs hm hp
      obtain ⟨hin, ht⟩ := ih hc (by simp [hs]) hxs.symm
      rw [writeBits_ct] at hin ht
      refine ⟨List.forall_mem_cons.2 ⟨by simp [hread], hin⟩, ?_⟩
      rw [ht, codeBits_cons xs hread, writeBits_append]

/-- From PHASE IDLE to PHASE IDLE: a completed session has written its header line, then its code bits packed by
ENC_SYM and flushed by ENC_END, under the table that stands at its end. -/
theorem encodeSession_completed {s t : State} {hdr syms : List Byte} {cmds : List Instr} (hs : s.phase = .idle)
    (hsession : encodeSession hdr syms cmds) (hrun : execList cmds s = .next t) (ht : t.phase ≠ .fault) :
    ∃ v : State, v.pkCnt = 0#3 ∧ v.pkByte = 0#8 ∧ v.eout = s.eout ++ hdr ++ [0x0A#8] ∧ v.ct = t.ct ∧
      (∀ x ∈ syms, t.ct.read x.toNat ≠ none) ∧ t = flushPacker (writeBits v (codeBits t.ct syms)) := by
  obtain ⟨ha, head, body, rfl, hhead, hbody⟩ := encodeSession_split hsession
  have hc : Completes _ s t := ⟨ha, hrun, ht⟩
  obtain ⟨a, hstart, -, hc⟩ := hc.cons
  obtain ⟨b, hheader, hc⟩ := hc.append
  obtain ⟨v, hend, hv, hc⟩ := hc.cons
  obtain ⟨d, hpayload, hc⟩ := hc.append
  obtain ⟨e, hflush, -, hc⟩ := hc.cons
  obtain ⟨rfl, -⟩ := Completes.nil_iff.1 hc
  rw [exec_encStart hs] at hstart
  cases hstart
  have hb := hheader.encodeHeader rfl hhead
  have hv' := exec_encHdrend (by rw [hb]) hend hv
  obtain ⟨hin, hd⟩ := hpayload.encodePayload (by rw [hv']) hbody
  rw [exec_encEnd (by rw [hd, writeBits_phase, hv'])] at hflush
  have hct : t.ct = v.ct := by
    cases hflush
    rw [flushPacker_eq, hd]
    simp
  rw [hct]
  refine ⟨v, ?_, ?_, ?_, rfl, hin, ?_⟩
  · rw [hv', hb]
  · rw [hv', hb]
  · rw [hv', hb]
  · rw [← hd]; exact (Host.Outcome.next.inj hflush).symm

/-- A byte whose low bits are clear holds its top bits and then zeros. -/
theorem topBits_of_low_clear {n : Nat} (hn : n ≤ 8) {x : Byte} (h : ∀ k < 8 - n, x.getLsbD k = false) :
    topBits 8 x = topBits n x ++ List.replicate (8 - n) false := by
  refine List.ext_getElem (by simp [topBits]; omega) fun i h₁ h₂ => ?_
  simp only [topBits, List.length_map, List.length_range] at h₁
  by_cases hi : i < n
  · rw [List.getElem_append_left (by simpa [topBits] using hi)]
    simp [topBits]
  · rw [List.getElem_append_right (by simpa [topBits] using hi)]
    simpa [topBits] using h (7 - i) (by omega)

/-- ENC_SYM and ENC_END from the empty packer write the bits, padded with zeros to whole bytes; TAILBITS counts the
bits of the last byte (R133, R135). -/
theorem flushPacker_writeBits {v : State} (p : Bits) (hcnt : v.pkCnt = 0#3) (hbyte : v.pkByte = 0#8) :
    ∃ payload : List Byte, (flushPacker (writeBits v p)).eout = v.eout ++ payload ∧
      (flushPacker (writeBits v p)).tailBits.toNat = p.length % 8 ∧
      ∃ k < 8, streamBits payload = p ++ List.replicate k false := by
  obtain ⟨out, heout, hbits, -⟩ := writeBits_spec v p
  have hlow := writeBits_low (s := v) p (by simp [hbyte])
  generalize writeBits v p = m at *
  have hwait : waitingBits v = [] := by simp [waitingBits, topBits, hcnt]
  rw [hwait, List.nil_append] at hbits
  have hlt := m.pkCnt.isLt
  have htail : m.pkCnt.toNat = p.length % 8 := by
    have := congrArg List.length hbits
    rw [List.length_append, streamBits_length, waitingBits, topBits_length] at this
    omega
  rw [flushPacker_eq]
  refine ⟨out ++ if m.pkCnt = 0#3 then [] else [m.pkByte], by simp [heout], htail, ?_⟩
  by_cases h0 : m.pkCnt = 0#3
  · refine ⟨0, by omega, ?_⟩
    simpa [h0, waitingBits, topBits] using hbits
  · have hpos : m.pkCnt.toNat ≠ 0 := fun h => h0 (BitVec.eq_of_toNat_eq h)
    refine ⟨8 - m.pkCnt.toNat, by omega, ?_⟩
    have hlast : streamBits [m.pkByte] = waitingBits m ++ List.replicate (8 - m.pkCnt.toNat) false := by
      simpa [streamBits, waitingBits] using topBits_of_low_clear (by omega) hlow
    rw [if_neg h0, streamBits_append, hlast, ← List.append_assoc, hbits]

/-- The file of a completed encode session: the header line, then the code bits of the symbols, padded with zeros to
whole bytes, with TAILBITS their number modulo 8 (R136). -/
theorem encodeSession_file {s t : State} {hdr syms : List Byte} {cmds : List Instr} (hs : s.phase = .idle)
    (hsession : encodeSession hdr syms cmds) (hrun : execList cmds s = .next t) (ht : t.phase ≠ .fault) :
    (∀ x ∈ syms, t.ct.read x.toNat ≠ none) ∧
      ∃ payload : List Byte, t.eout = s.eout ++ ((hdr ++ [0x0A#8]) ++ payload) ∧
        t.tailBits.toNat = (codeBits t.ct syms).length % 8 ∧
        ∃ k < 8, streamBits payload = codeBits t.ct syms ++ List.replicate k false := by
  obtain ⟨v, hcnt, hbyte, heout, -, hin, hflush⟩ := encodeSession_completed hs hsession hrun ht
  obtain ⟨payload, hpay, htail, hbits⟩ := flushPacker_writeBits (codeBits t.ct syms) hcnt hbyte
  rw [← hflush] at hpay htail
  exact ⟨hin, payload, by rw [hpay, heout]; simp, htail, hbits⟩

/-! The matcher on the bits of symbols (R155, R161). -/

/-- Bits that continue the accumulator to the path of a symbol emit that symbol and nothing before it. -/
theorem feedBits_path {s : State} (hs : tableOk s.ct) (hovf : s.accOvf = false) {x : Byte} {q : Bits} (hq : q ≠ [])
    (hread : s.ct.read x.toNat = some (s.acc ++ q)) :
    feedBits s q = { s with acc := [], dsym := s.dsym ++ [x] } := by
  induction q generalizing s with
  | nil => exact absurd rfl hq
  | cons b q ih =>
    have hmem := mem_of_read hread
    have hlen : (s.acc ++ b :: q).length ≤ 255 := (hs.1.2 _ hmem).2.2
    have hpath : s.acc ++ b :: q = s.acc ++ [b] ++ q := by simp
    have hrun : feedBits s (b :: q) = feedBits (feed s b) q := rfl
    simp only [List.length_append, List.length_cons] at hlen
    rw [hrun]
    rcases feed_cases s b with ⟨h, -⟩ | ⟨-, h, -⟩ | ⟨-, -, a, hfind, hfeed⟩ | ⟨-, -, hfind, hfeed⟩
    · simp [hovf] at h
    · omega
    · have ha : (a, s.acc ++ [b]) ∈ s.ct := mem_find.1 (by simp [hfind])
      have hax : a = x.toNat := by
        by_contra hne
        exact not_prefix_of_ne hs.2 ha hmem hne (hpath ▸ List.prefix_append _ _)
      subst hax
      have hnil : q = [] := by simpa using hread.symm.trans (read_of_mem hs.1.1 ha)
      rw [hnil, hfeed, BitVec.ofNat_toNat, BitVec.setWidth_eq]
      rfl
    · have hne : q ≠ [] := by
        rintro rfl
        rcases find_cases hs (s.acc ++ [b]) with ⟨-, hno⟩ | ⟨a, ha, -⟩
        · exact hno _ hmem
        · exact hfind a ha
      have := ih (s := feed s b) (by rw [hfeed]; exact hs) (by rw [hfeed]; exact hovf) hne
        (by rw [hfeed]; simpa using hread)
      rw [this, hfeed]

theorem feedBits_append (s : State) (p q : Bits) : feedBits s (p ++ q) = feedBits (feedBits s p) q :=
  List.foldl_append

/-- The code bits of symbols of the table decode to those symbols, and nothing is left over (R161). -/
theorem feedBits_codeBits {s : State} (hs : tableOk s.ct) (hovf : s.accOvf = false) (hacc : s.acc = [])
    {syms : List Byte} (hin : ∀ x ∈ syms, s.ct.read x.toNat ≠ none) :
    feedBits s (codeBits s.ct syms) = { s with dsym := s.dsym ++ syms } := by
  induction syms generalizing s with
  | nil => simp [codeBits, feedBits]
  | cons x xs ih =>
    obtain ⟨hx, hxs⟩ := List.forall_mem_cons.1 hin
    obtain ⟨p, hp⟩ := Option.ne_none_iff_exists'.1 hx
    have hne : p ≠ [] := List.length_pos_iff.1 (hs.1.2 _ (mem_of_read hp)).2.1
    have hfeed := feedBits_path hs hovf hne (by rw [hacc]; exact hp)
    rw [codeBits_cons xs hp, feedBits_append, hfeed]
    have := ih (s := { s with acc := [], dsym := s.dsym ++ [x] }) hs hovf rfl hxs
    rw [this]
    simp [hacc]

/-! The decode session (R161). -/

theorem exec_decStart {s : State} (h : s.phase = .idle) :
    exec .decStart s = .next { s with phase := .decHdr, acc := [], accOvf := false } :=
  congrArg _ (guarded_of_legal _ _ (by simp [h]) (by simp [h]))

theorem exec_decByte_header {s : State} (data : Byte) (h : s.phase = .decHdr) :
    exec (.decByte data) s = .next (headerByte (encode (.decByte data)) data false s) := by
  refine congrArg _ ((guarded_of_legal _ _ (by simp [h]) (by simp [decLegal, h])).trans ?_)
  simp [h]

/-- The header line is delivered without its newline, which opens the table phase (R152). -/
theorem execList_header {s : State} {hdr : List Byte} (hs : s.phase = .decHdr) (hnl : 0x0A#8 ∉ hdr) :
    execList ((hdr ++ [0x0A#8]).map Instr.decByte) s = .next { s with phase := .decTbl, dhdr := s.dhdr ++ hdr } := by
  induction hdr generalizing s with
  | nil => exact (execList_cons (exec_decByte_header _ hs)).trans (by simp [headerByte, Config.nl])
  | cons x hdr ih =>
    obtain ⟨hx, hnl⟩ := not_or.1 (mt List.mem_cons.2 hnl)
    rw [List.cons_append, List.map_cons, execList_cons (exec_decByte_header x hs)]
    rcases headerByte_cases (encode (.decByte x)) x false s with ⟨h, -⟩ | ⟨-, h, -⟩ | ⟨-, -, he⟩
    · exact absurd h.symm hx
    · cases h
    · rw [he]
      exact (ih (s := { s with dhdr := s.dhdr ++ [x] }) hs hnl).trans (by simp)

/-- Where the block takes payload bytes: DEC_PAY, or DEC_TBL with no record staged (R151). -/
def AtPayload (s : State) : Prop :=
  s.phase = .decPay ∨ (s.phase = .decTbl ∧ s.stg = none)

theorem AtPayload.ne_fault {s : State} (h : AtPayload s) : s.phase ≠ .fault := by
  rcases h with h | ⟨h, -⟩ <;> simp [h]

theorem AtPayload.ne_decHdr {s : State} (h : AtPayload s) : s.phase ≠ .decHdr := by
  rcases h with h | ⟨h, -⟩ <;> simp [h]

theorem AtPayload.decLegal {s : State} (h : AtPayload s) : decLegal s = true := by
  rcases h with h | ⟨h, hstg⟩ <;> simp [Machine.decLegal, stgOpen, *]

theorem exec_decByte_payload {s : State} (data : Byte) (h : AtPayload s) :
    exec (.decByte data) s = .next (feedBits { s with phase := .decPay } (topBits 8 data)) := by
  refine congrArg _ ((guarded_of_legal _ _ h.ne_fault h.decLegal).trans ?_)
  simp only [h.ne_decHdr, if_false]
  rfl

theorem exec_decByteLast_payload {s : State} {n : BitVec 4} (data : Byte) (h : AtPayload s) (hn : n.toNat ≤ 8) :
    exec (.decByteLast n data) s =
      .next (endOfBits (encode (.decByteLast n data))
        (feedBits { s with phase := .decPay } (topBits n.toNat data))) := by
  refine congrArg _ ((guarded_of_legal _ _ h.ne_fault h.decLegal).trans ?_)
  simp only [h.ne_decHdr, if_false, payloadByte, payloadBits_eq, Nat.min_eq_left hn]

theorem exec_decEnd_payload {s : State} (h : AtPayload s) :
    exec .decEnd s = .next (endOfBits (encode .decEnd) s) := by
  refine congrArg _ ((guarded_of_legal _ _ h.ne_fault h.decLegal).trans ?_)
  simp only [h.ne_decHdr, if_false]

@[simp] theorem feedBits_phase (s : State) (bs : Bits) : (feedBits s bs).phase = s.phase := by
  obtain ⟨out, -, -, h⟩ := feedBits_frame s bs
  rw [h]

theorem withPhase_self {s : State} {p : Phase} (h : s.phase = p) : { s with phase := p } = s := by
  subst h
  rfl

/-- Full payload bytes and a last byte of n bits feed all their bits in order, and then the bits end (R151). -/
theorem execList_payload {s : State} (ys : List Byte) {n : BitVec 4} (y : Byte) (h : AtPayload s) (hn : n.toNat ≤ 8) :
    execList (ys.map Instr.decByte ++ [.decByteLast n y]) s =
      .next (endOfBits (encode (.decByteLast n y))
        (feedBits { s with phase := .decPay } (streamBits ys ++ topBits n.toNat y))) := by
  induction ys generalizing s with
  | nil => exact execList_cons (exec_decByteLast_payload y h hn)
  | cons x ys ih =>
    have hpay : (feedBits { s with phase := .decPay } (topBits 8 x)).phase = .decPay := feedBits_phase _ _
    have hbits : streamBits (x :: ys) = topBits 8 x ++ streamBits ys := rfl
    rw [List.map_cons, List.cons_append, execList_cons (exec_decByte_payload x h), ih (.inl hpay),
      withPhase_self hpay, hbits, List.append_assoc, ← feedBits_append]

theorem topBits_take {n : Nat} (hn : n ≤ 8) (y : Byte) : (topBits 8 y).take n = topBits n y := by
  rw [topBits, ← List.map_take, List.take_range, Nat.min_eq_left hn, topBits]

/-- The meaningful bits of a file are those of its full bytes and the top bits of its last byte, as many as the tail
count says, which R16 reads as 8 where it is 0. -/
theorem streamBits_last {ys : List Byte} {y : Byte} {B pad : Bits} (h : streamBits (ys ++ [y]) = B ++ pad)
    (hpad : pad.length < 8) :
    B = streamBits ys ++ topBits (if B.length % 8 = 0 then 8 else B.length % 8) y := by
  have hlen := congrArg List.length h
  rw [streamBits_length, List.length_append, List.length_append, List.length_singleton] at hlen
  have hn : B.length = (streamBits ys).length + (if B.length % 8 = 0 then 8 else B.length % 8) := by
    rw [streamBits_length]; split <;> omega
  have hle : (if B.length % 8 = 0 then 8 else B.length % 8) ≤ 8 := by split <;> omega
  calc
    B = (streamBits (ys ++ [y])).take B.length := by rw [h, List.take_left]
    _ = (streamBits ys ++ topBits 8 y).take B.length := by rw [streamBits_append]; simp [streamBits]
    _ = streamBits ys ++ (topBits 8 y).take (if B.length % 8 = 0 then 8 else B.length % 8) := by
      conv_lhs => rw [hn]
      exact List.take_length_add_append _
    _ = _ := by rw [topBits_take hle]

/-- A payload of bits B, padded to whole bytes and presented with its tail count, feeds exactly B; where that leaves
nothing over, the session completes (R16, R157, R158). -/
theorem execList_presentPayload {s : State} {ys : List Byte} {B pad : Bits} (h : AtPayload s)
    (hbits : streamBits ys = B ++ pad) (hpad : pad.length < 8)
    (hacc : (feedBits { s with phase := .decPay } B).acc = []) :
    execList (presentPayload ys (B.length % 8)) s =
      .next { feedBits { s with phase := .decPay } B with phase := .idle } := by
  rcases List.eq_nil_or_concat' ys with rfl | ⟨zs, y, rfl⟩
  · obtain ⟨rfl, -⟩ := List.append_eq_nil_iff.1 (show B ++ pad = [] from hbits.symm)
    have he : endOfBits (encode .decEnd) s = { s with phase := .idle } := by
      rcases endOfBits_cases (encode .decEnd) s with ⟨hne, -⟩ | ⟨-, he⟩
      · exact absurd hacc hne
      · exact he
    exact (execList_cons (exec_decEnd_payload h)).trans (congrArg _ he)
  · have hB := streamBits_last hbits hpad
    have hle : (if B.length % 8 = 0 then 8 else B.length % 8) ≤ 8 := by split <;> omega
    have hpresent : presentPayload (zs ++ [y]) (B.length % 8) = zs.map Instr.decByte ++
        [.decByteLast (BitVec.ofNat 4 (if B.length % 8 = 0 then 8 else B.length % 8)) y] := by
      simp [presentPayload]
    generalize (if B.length % 8 = 0 then 8 else B.length % 8) = n at *
    have hn : (BitVec.ofNat 4 n).toNat = n := by rw [BitVec.toNat_ofNat]; omega
    rw [hpresent, execList_payload zs y h (by omega), hn, ← hB]
    rcases endOfBits_cases (encode (.decByteLast (BitVec.ofNat 4 n) y)) (feedBits { s with phase := .decPay } B) with
      ⟨hne, -⟩ | ⟨-, he⟩
    · exact absurd hacc hne
    · rw [he]

/-- After DEC_START, a header line and table commands: the header is delivered, the accumulator is empty and the table
is as R26 says. -/
theorem decodeSession_start {s u : State} {hdr : List Byte} {tbl : List Instr} (hinv : s.Inv) (hs : s.phase = .idle)
    (hnl : 0x0A#8 ∉ hdr) (htbl : ∀ i ∈ tbl, tableOrNop i = true)
    (hrun : execList (.decStart :: ((hdr ++ [0x0A#8]).map Instr.decByte ++ tbl)) s = .next u)
    (hu : u.phase ≠ .fault) :
    tableOk u.ct ∧ u.acc = [] ∧ u.accOvf = false ∧ u.dhdr = s.dhdr ++ hdr ∧ u.dsym = s.dsym := by
  rw [execList_cons (exec_decStart hs), execList_append (execList_header rfl hnl)] at hrun
  have hc : Completes tbl _ u := ⟨fun ha => by simpa [tableOrNop] using htbl _ ha, hrun, hu⟩
  obtain ⟨hframe, hsound⟩ := hc.tableCommands htbl
  obtain ⟨hct, -⟩ := hsound hinv.tableSound
  refine ⟨hct, ?_⟩
  rw [hframe]
  exact ⟨rfl, rfl, rfl, rfl⟩

/-! The statements. -/

/-- Settles O8: the step takes the first input, and a presented word is that input. -/
theorem stepRunsTheDecodedWord : Obligations.StepRunsTheDecodedWord := by
  refine ⟨fun s w rest i hin hdec => ?_, fun s w rest e hin hdec => ?_, fun s => step_of_no_input, fun s w => ?_⟩
  · rw [step_of_input hin]; simp [takeInput, runWord, hdec]
  · rw [step_of_input hin]; simp [takeInput, runWord, hdec]
  · have hw : (s.withFetchWord 16 w.toNat).input = .word w :: s.input := by
      simp [State.withFetchWord, presentWord, Nat.mod_eq_of_lt w.isLt]
    rw [step_of_input hw]
    rfl

/-- Settles O9: exec answers a next state in each of its arms, and a word, an input and a step only add states that the
model gives outright. -/
theorem everyStepAnswersANextState : Obligations.EveryStepAnswersANextState :=
  ⟨exec_answers, runWord_answers, step_answers⟩

/-- Settles O47: the file holds the code bits of the symbols, the presented payload feeds exactly those bits, and the
matcher gives back the symbols with nothing left over. -/
theorem encodeThenDecodeRoundTrips : Obligations.EncodeThenDecodeRoundTrips := by
  intro s₁ t₁ s₂ u hdr syms file cmds tbl hs₁ hsession henc ht₁ hfile hnl hinv hs₂ htbl hdec hu hstg hct
  obtain ⟨hin, payload, heout, htail, k, hk, hbits⟩ := encodeSession_file hs₁ hsession henc ht₁
  obtain rfl : file = (hdr ++ [0x0A#8]) ++ payload := List.append_cancel_left (hfile.symm.trans heout)
  have hline : hdr.length + 1 = (hdr ++ [0x0A#8]).length := by simp
  rw [hline, List.take_left] at hdec
  rw [hline, List.drop_left, htail]
  obtain ⟨htab, hacc, hovf, hdhdr, hdsym⟩ := decodeSession_start hinv hs₂ hnl htbl hdec (by simp [hu])
  rw [← hct] at hin hbits ⊢
  have hfeed : feedBits { u with phase := .decPay } (codeBits u.ct syms) =
      { u with phase := .decPay, dsym := u.dsym ++ syms } :=
    feedBits_codeBits (s := { u with phase := .decPay }) htab hovf hacc hin
  have hrun := execList_presentPayload (.inr ⟨hu, hstg⟩) hbits (by simpa using hk) (by rw [hfeed]; exact hacc)
  rw [hfeed] at hrun
  exact ⟨_, hrun, rfl, hdhdr, by rw [← hdsym]⟩

end Sys2Proof.Machine

/-! PROOFS for the statements of 10_state.md: what each command can do, said once; the invariant along every run; the
traces, the staging register and the writers of each element; reset and STATUS. -/

namespace Sys2Proof.Machine

/-! The word of a command (30_encoding.md R81 to R87). -/

/-- A word is its opcode and its argument (R80). -/
theorem opOf_append_argOf (w : CmdWord) : opOf w ++ argOf w = w := by
  simp only [opOf, argOf]
  rw [BitVec.extractLsb'_append_extractLsb'_eq_extractLsb' (by rfl)]
  exact BitVec.extractLsb'_eq_self

/-- An argument is its four high bits and the byte of format B or D (R87). -/
theorem argOf_eq_append_byteOf (w : CmdWord) : argOf w = w.extractLsb' 8 4 ++ byteOf w := by
  rw [argOf, byteOf, BitVec.extractLsb'_append_extractLsb'_eq_extractLsb' (by rfl)]

theorem ofBool_getLsbD (w : CmdWord) (k : Nat) : BitVec.ofBool (w.getLsbD k) = w.extractLsb' k 1 := by
  ext j hj
  obtain rfl : j = 0 := by omega
  simp

/-- A word of format N, its opcode checked, is the word of the command it is read as (R81). -/
theorem encode_of_formatN {w : CmdWord} {i j : Instr} (h : formatN w i = .ok j) (hi : encode i = wordN (opOf w)) :
    encode j = w := by
  unfold formatN at h
  split at h
  · rename_i harg
    cases h
    rw [hi, wordN, ← harg, opOf_append_argOf]
  · cases h

/-- The same of format B (R82). -/
theorem encode_of_formatB {w : CmdWord} {mk : Byte → Instr} {j : Instr} (h : formatB w mk = .ok j)
    (hmk : ∀ b, encode (mk b) = wordB (opOf w) b) : encode j = w := by
  unfold formatB at h
  split at h
  · rename_i hz
    cases h
    rw [hmk, wordB, ← hz, BitVec.append_assoc, ← argOf_eq_append_byteOf, BitVec.cast_eq, opOf_append_argOf]
  · cases h

/-- The same of format T (R83). -/
theorem encode_of_formatT {w : CmdWord} {j : Instr} (h : formatT w .ctBit = .ok j) (hop : opOf w = 0x3#4) :
    encode j = w := by
  unfold formatT at h
  split at h
  · rename_i hz
    cases h
    have harg : argOf w = w.extractLsb' 1 11 ++ w.extractLsb' 0 1 := by
      rw [argOf, BitVec.extractLsb'_append_extractLsb'_eq_extractLsb' (by rfl)]
    rw [encode, ← hop, ← hz, ofBool_getLsbD, BitVec.append_assoc, ← harg, BitVec.cast_eq, opOf_append_argOf]
  · cases h

/-- nvm1 is nvalid - 1 (R84, R87). -/
theorem nvalid_sub_one (n : BitVec 3) : (n.zeroExtend 4 + 1#4 - 1#4).truncate 3 = n := by
  rw [BitVec.add_sub_cancel]
  simp

/-- The same of format D, in both its rows (R84). -/
theorem encode_of_formatD {w : CmdWord} {j : Instr} (h : formatD w = .ok j) (hop : opOf w = 0xB#4) : encode j = w := by
  have hfour : w.extractLsb' 8 4 = BitVec.ofBool (w.getLsbD 11) ++ w.extractLsb' 8 3 := by
    rw [ofBool_getLsbD, BitVec.extractLsb'_append_extractLsb'_eq_extractLsb' (by rfl)]
  have hword : 0xB#4 ++ BitVec.ofBool (w.getLsbD 11) ++ w.extractLsb' 8 3 ++ byteOf w = w := by
    rw [← hop, BitVec.append_assoc (x₃ := w.extractLsb' 8 3), BitVec.cast_eq, ← hfour, BitVec.append_assoc,
      BitVec.cast_eq, ← argOf_eq_append_byteOf, opOf_append_argOf]
  unfold formatD at h
  simp only at h
  split at h
  · rename_i hl
    cases h
    rw [encode, nvalid_sub_one]
    rwa [hl] at hword
  · split at h
    · rename_i hl h7
      cases h
      rw [Bool.eq_false_of_not_eq_true hl, h7] at hword
      exact hword
    · cases h

/-- A word that decodes is the word of its command: no bit of it is dropped. -/
theorem encode_of_decode {w : CmdWord} {i : Instr} (h : decode w = .ok i) : encode i = w := by
  unfold decode at h
  split at h
  case h_3 hop | h_7 hop | h_9 hop => exact encode_of_formatB h fun b => by rw [hop]; rfl
  case h_4 hop => exact encode_of_formatT h hop
  case h_12 hop => exact encode_of_formatD h hop
  case h_14 hop | h_15 hop =>
    cases h
    rw [encode, ← hop, opOf_append_argOf]
  case h_16 =>
    have hop : opOf w = 0xF#4 := by
      generalize opOf w = op at *
      revert op
      decide
    exact encode_of_formatN h (by rw [hop]; rfl)
  all_goals
    rename_i hop
    exact encode_of_formatN h (by rw [hop]; rfl)

/-- Every command's word has the fixed bits of its row of the opcode table. -/
theorem tableRow (i : Instr) : Laws.TableRow.Statement i := by
  cases i
  exacts [Laws.TableRow.nop, Laws.TableRow.ctClear, Laws.TableRow.ctOpen _, Laws.TableRow.ctBit _,
    Laws.TableRow.ctCommit, Laws.TableRow.encStart, Laws.TableRow.encHdrb _, Laws.TableRow.encHdrend,
    Laws.TableRow.encSym _, Laws.TableRow.encEnd, Laws.TableRow.decStart, Laws.TableRow.decByte _,
    Laws.TableRow.decByteLast _ _, Laws.TableRow.decEnd, Laws.TableRow.reservedD _, Laws.TableRow.reservedE _,
    Laws.TableRow.abort]

/-- The word 0 is NOP's only: the fixed bits of every other row are not all 0. -/
theorem encode_ne_zero {i : Instr} (hi : i ≠ .nop) : encode i ≠ 0#16 := by
  intro h
  have hrow := tableRow i
  rw [Laws.TableRow.Statement, h, BitVec.zero_and] at hrow
  cases i with
  | nop => exact hi rfl
  | _ => simp [Laws.rowOf] at hrow

/-! What a command can do, said once (R88, R110 to R113, R130 to R135, R150 to R158, R180 to R182). -/

/-- What the command i leads to from s. Every state is s with the elements that i writes, so what stands in no update
is unchanged. -/
inductive Effect (s : State) : Instr → State → Prop where
  /-- Phase FAULT ignores every command but ABORT (R204). -/
  | ignored {i : Instr} : s.phase = .fault → i ≠ .abort → Effect s i s
  /-- A fault taken before the command has changed anything (R203). -/
  | faulted {i : Instr} (f : FCode) : s.phase ≠ .fault → i ≠ .nop → f ≠ .noFault →
      Effect s i (raiseFault f (encode i) s)
  | nop : Effect s .nop s
  | ctClear : tablePhase s = true → Effect s .ctClear { s with ct := [], stg := none }
  | ctOpen (byte : Byte) : tablePhase s = true → s.stg = none →
      Effect s (.ctOpen byte) { s with stg := some ⟨byte, []⟩ }
  | ctBit (b : Bool) (r : Staged) : tablePhase s = true → s.stg = some r → r.path.length < 255 →
      Effect s (.ctBit b) { s with stg := some ⟨r.sym, r.path ++ [b]⟩ }
  | ctCommit (r : Staged) : tablePhase s = true → s.stg = some r → r.path ≠ [] → ctRead s r.sym = none →
      (∀ e ∈ s.ct, conflict e.2 r.path = false) →
      Effect s .ctCommit { s with ct := s.ct.write r.sym.toNat r.path, stg := none }
  | encStart : s.phase = .idle →
      Effect s .encStart { s with phase := .encHdr, pkByte := 0#8, pkCnt := 0#3, tailBits := 0#3 }
  | encHdrb (byte : Byte) : s.phase = .encHdr → Effect s (.encHdrb byte) { s with eout := s.eout ++ [byte] }
  | encHdrend : s.phase = .encHdr → s.stg = none →
      Effect s .encHdrend { s with eout := s.eout ++ [0x0A#8], phase := .encPay }
  | encSym (byte : Byte) (p : Bits) (out : List Byte) : s.phase = .encPay → ctRead s byte = some p →
      Effect s (.encSym byte)
        { s with eout := s.eout ++ out, pkByte := (writeBits s p).pkByte, pkCnt := (writeBits s p).pkCnt }
  | encEnd : s.phase = .encPay →
      Effect s .encEnd
        { s with tailBits := s.pkCnt, eout := s.eout ++ (if s.pkCnt = 0#3 then [] else [s.pkByte]), pkByte := 0#8,
                 pkCnt := 0#3, phase := .idle }
  | decStart : s.phase = .idle → Effect s .decStart { s with phase := .decHdr, acc := [], accOvf := false }
  | headerByte (data : Byte) : s.phase = .decHdr → data ≠ 0x0A#8 →
      Effect s (.decByte data) { s with dhdr := s.dhdr ++ [data] }
  | headerEnd : s.phase = .decHdr → Effect s (.decByte 0x0A#8) { s with phase := .decTbl }
  | headerLast (n : BitVec 4) : s.phase = .decHdr → Effect s (.decByteLast n 0x0A#8) { s with phase := .idle }
  | payloadByte (data : Byte) (out : List Byte) : AtPayload s →
      Effect s (.decByte data)
        { s with phase := .decPay, acc := (payloadByte data 8 s).acc, accOvf := (payloadByte data 8 s).accOvf,
                 dsym := s.dsym ++ out }
  | payloadLast (n : BitVec 4) (data : Byte) (out : List Byte) : AtPayload s → (payloadByte data n.toNat s).acc = [] →
      Effect s (.decByteLast n data)
        { s with phase := .idle, acc := [], accOvf := (payloadByte data n.toNat s).accOvf, dsym := s.dsym ++ out }
  /-- The one imprecise fault: the bits have been fed (R157, R203). -/
  | premature (n : BitVec 4) (data : Byte) (out : List Byte) : AtPayload s → (payloadByte data n.toNat s).acc ≠ [] →
      Effect s (.decByteLast n data)
        { s with phase := .fault, fcode := .premEnd, finfo := encode (.decByteLast n data),
                 acc := (payloadByte data n.toNat s).acc, accOvf := (payloadByte data n.toNat s).accOvf,
                 dsym := s.dsym ++ out }
  | decEnd : AtPayload s → s.acc = [] → Effect s .decEnd { s with phase := .idle }
  | abort : Effect s .abort (clearAll s)

/-- A guarded command has an effect of its own rule where it is legal, and is ignored or out of sequence elsewhere. -/
theorem Effect.of_guarded {i : Instr} {legal : Bool} {body : State → State} {s : State} (hnop : i ≠ .nop)
    (habort : i ≠ .abort) (hbody : s.phase ≠ .fault → legal = true → Effect s i (body s)) :
    Effect s i (guarded (encode i) legal body s) := by
  rcases guarded_cases (encode i) legal body s with ⟨hf, he⟩ | ⟨hf, hl, he⟩ | ⟨hf, -, he⟩ <;> rw [he]
  · exact .ignored hf habort
  · exact hbody hf hl
  · exact .faulted _ hf hnop (by decide)

theorem Effect.of_illFormed {i : Instr} {s : State} (hnop : i ≠ .nop) (habort : i ≠ .abort) :
    Effect s i (illFormed (encode i) s) := by
  rcases illFormed_cases (encode i) s with ⟨hf, he⟩ | ⟨hf, he⟩ <;> rw [he]
  · exact .ignored hf habort
  · exact .faulted _ hf hnop (by decide)

/-- Where a decoder command is legal outside the header phase, it is at a payload (R151, R184). -/
theorem atPayload_of_decLegal {s : State} (h : decLegal s = true) (hh : s.phase ≠ .decHdr) : AtPayload s :=
  (decLegal_payload h hh).symm

theorem stageBit_effect {s : State} (b : Bool) (hf : s.phase ≠ .fault) (hl : (tablePhase s && stgOpen s) = true) :
    Effect s (.ctBit b) (stageBit (encode (.ctBit b)) b s) := by
  obtain ⟨htab, hopen⟩ := Bool.and_eq_true_iff.1 hl
  rcases stageBit_cases (encode (.ctBit b)) b s with ⟨hnone, -⟩ | ⟨r, hr, ⟨-, he⟩ | ⟨hlt, he⟩⟩
  · simp [stgOpen, hnone] at hopen
  · rw [he]; exact .faulted _ hf (by simp) (by decide)
  · rw [he]; exact .ctBit b r htab hr hlt

theorem commitStaged_effect {s : State} (hf : s.phase ≠ .fault) (hl : (tablePhase s && stgOpen s) = true) :
    Effect s .ctCommit (commitStaged (encode .ctCommit) s) := by
  obtain ⟨htab, hopen⟩ := Bool.and_eq_true_iff.1 hl
  rcases commitStaged_cases (encode .ctCommit) s with
    ⟨hnone, -⟩ | ⟨r, hr, ⟨-, he⟩ | ⟨-, -, he⟩ | ⟨-, -, -, he⟩ | ⟨hne, hnew, hc, he⟩⟩
  · simp [stgOpen, hnone] at hopen
  · rw [he]; exact .faulted _ hf (by simp) (by decide)
  · rw [he]; exact .faulted _ hf (by simp) (by decide)
  · rw [he]; exact .faulted _ hf (by simp) (by decide)
  · rw [he]; exact .ctCommit r htab hr hne hnew hc

theorem packSymbol_effect {s : State} (byte : Byte) (h : s.phase = .encPay) :
    Effect s (.encSym byte) (packSymbol (encode (.encSym byte)) byte s) := by
  rcases packSymbol_cases (encode (.encSym byte)) byte s with ⟨-, he⟩ | ⟨p, hp, he⟩ <;> rw [he]
  · exact .faulted _ (by simp [h]) (by simp) (by decide)
  · obtain ⟨out, -, -, hw⟩ := writeBits_spec s p
    rw [hw]
    exact .encSym byte p out h hp

theorem headerByte_effect {s : State} (data : Byte) (h : s.phase = .decHdr) :
    Effect s (.decByte data) (headerByte (encode (.decByte data)) data false s) := by
  rcases headerByte_cases (encode (.decByte data)) data false s with ⟨rfl, he⟩ | ⟨-, hl, -⟩ | ⟨hne, -, he⟩
  · rw [he]; exact .headerEnd h
  · cases hl
  · rw [he]; exact .headerByte data h hne

theorem headerByteLast_effect {s : State} (n : BitVec 4) (data : Byte) (h : s.phase = .decHdr) :
    Effect s (.decByteLast n data) (headerByte (encode (.decByteLast n data)) data true s) := by
  rcases headerByte_cases (encode (.decByteLast n data)) data true s with ⟨rfl, he⟩ | ⟨-, -, he⟩ | ⟨-, hl, -⟩
  · rw [he]; exact .headerLast n h
  · rw [he]; exact .faulted _ (by simp [h]) (by simp) (by decide)
  · cases hl

theorem payloadByte_effect {s : State} (data : Byte) (h : AtPayload s) :
    Effect s (.decByte data) (payloadByte data 8 s) := by
  obtain ⟨out, -, he⟩ := payloadByte_frame data 8 s
  rw [he]
  exact .payloadByte data out h

theorem payloadLast_effect {s : State} (n : BitVec 4) (data : Byte) (h : AtPayload s) :
    Effect s (.decByteLast n data) (endOfBits (encode (.decByteLast n data)) (payloadByte data n.toNat s)) := by
  obtain ⟨out, -, hframe⟩ := payloadByte_frame data n.toNat s
  rcases endOfBits_cases (encode (.decByteLast n data)) (payloadByte data n.toNat s) with ⟨hne, he⟩ | ⟨hnil, he⟩ <;>
    rw [he, hframe]
  · exact .premature n data out h hne
  · rw [hnil]
    exact .payloadLast n data out h hnil

theorem endOfBits_effect {s : State} (h : AtPayload s) : Effect s .decEnd (endOfBits (encode .decEnd) s) := by
  rcases endOfBits_cases (encode .decEnd) s with ⟨-, he⟩ | ⟨hnil, he⟩ <;> rw [he]
  · exact .faulted _ h.ne_fault (by simp) (by decide)
  · exact .decEnd h hnil

/-- Every command has one of its effects. -/
theorem exec_effect {i : Instr} {s t : State} (h : exec i s = .next t) : Effect s i t := by
  cases i with
  | nop => cases h; exact .nop
  | abort => cases h; exact .abort
  | reservedD arg | reservedE arg => cases h; exact .of_illFormed (by simp) (by simp)
  | ctClear => cases h; exact .of_guarded (by simp) (by simp) fun _ hl => .ctClear hl
  | ctOpen byte =>
    cases h
    refine .of_guarded (by simp) (by simp) fun _ hl => ?_
    obtain ⟨htab, hclosed⟩ := Bool.and_eq_true_iff.1 hl
    exact .ctOpen byte htab (by simpa [stgOpen] using hclosed)
  | ctBit b => cases h; exact .of_guarded (by simp) (by simp) (stageBit_effect b)
  | ctCommit => cases h; exact .of_guarded (by simp) (by simp) commitStaged_effect
  | encStart => cases h; exact .of_guarded (by simp) (by simp) fun _ hl => .encStart (beq_iff_eq.1 hl)
  | encHdrb byte => cases h; exact .of_guarded (by simp) (by simp) fun _ hl => .encHdrb byte (beq_iff_eq.1 hl)
  | encHdrend =>
    cases h
    refine .of_guarded (by simp) (by simp) fun _ hl => ?_
    obtain ⟨hp, hclosed⟩ := Bool.and_eq_true_iff.1 hl
    exact .encHdrend (beq_iff_eq.1 hp) (by simpa [stgOpen] using hclosed)
  | encSym byte =>
    cases h; exact .of_guarded (by simp) (by simp) fun _ hl => packSymbol_effect byte (beq_iff_eq.1 hl)
  | encEnd =>
    cases h
    refine .of_guarded (by simp) (by simp) fun _ hl => ?_
    rw [flushPacker_eq]
    exact .encEnd (beq_iff_eq.1 hl)
  | decStart => cases h; exact .of_guarded (by simp) (by simp) fun _ hl => .decStart (beq_iff_eq.1 hl)
  | decByte data =>
    cases h
    refine .of_guarded (by simp) (by simp) fun _ hl => ?_
    split
    · exact headerByte_effect data ‹_›
    · exact payloadByte_effect data (atPayload_of_decLegal hl ‹_›)
  | decByteLast n data =>
    cases h
    refine .of_guarded (by simp) (by simp) fun _ hl => ?_
    split
    · exact headerByteLast_effect n data ‹_›
    · exact payloadLast_effect n data (atPayload_of_decLegal hl ‹_›)
  | decEnd =>
    cases h
    refine .of_guarded (by simp) (by simp) fun hf hl => ?_
    split
    · exact .faulted _ hf (by simp) (by decide)
    · exact endOfBits_effect (atPayload_of_decLegal hl ‹_›)

/-! The accumulator (R29, R155). -/

/-- The accumulator as R29 has it in DEC_PAY: at most 255 bits, 255 when ACC_OVF is set, and else no valid path
begins it. -/
def AccSound (s : State) : Prop :=
  s.acc.length ≤ 255 ∧ (s.accOvf = true → s.acc.length = 255) ∧ (s.accOvf = false → ∀ e ∈ s.ct, ¬ e.2 <+: s.acc)

/-- The empty accumulator has no valid path at its start, since a path has a bit (R26). -/
theorem not_prefix_nil {m : Memory} (htab : tableOk m) {e : Nat × Bits} (he : e ∈ m) : ¬ e.2 <+: [] := by
  obtain ⟨⟨-, hwf⟩, -⟩ := htab
  obtain ⟨-, hpos, -⟩ := hwf e he
  rw [List.prefix_nil]
  exact List.length_pos_iff.1 hpos

theorem State.Inv.accSound {s : State} (h : s.Inv) (hp : AtPayload s) : AccSound s := by
  obtain ⟨-, htab, -, -, hlen, hfull, hempty, hun⟩ := h
  refine ⟨hlen, hfull, ?_⟩
  rcases hp with hp | ⟨hp, -⟩
  · exact hun hp
  · obtain ⟨hacc, -⟩ := hempty (by simp [hp]) (by simp [hp])
    rw [hacc]
    exact fun _ e he => not_prefix_nil htab he

@[simp] theorem feed_ct (s : State) (b : Bool) : (feed s b).ct = s.ct := by
  rcases feed_cases s b with ⟨-, he⟩ | ⟨-, -, he⟩ | ⟨-, -, a, -, he⟩ | ⟨-, -, -, he⟩ <;> rw [he]

/-- A fed bit that completes no path leaves an accumulator with no valid path at its start (R155). -/
theorem feed_accSound {s : State} (b : Bool) (htab : tableOk s.ct) (h : AccSound s) : AccSound (feed s b) := by
  obtain ⟨hlen, hfull, hun⟩ := h
  rcases feed_cases s b with ⟨-, he⟩ | ⟨-, hge, he⟩ | ⟨hovf, -, a, -, he⟩ | ⟨hovf, hlt, hfind, he⟩ <;> rw [he]
  · exact ⟨hlen, hfull, hun⟩
  · exact ⟨hlen, fun _ => Nat.le_antisymm hlen hge, by simp⟩
  · exact ⟨by simp, by simp [hovf], fun _ e he => not_prefix_nil htab he⟩
  · refine ⟨by simpa using hlt, by simp [hovf], fun _ e he hpre => ?_⟩
    rcases List.prefix_concat_iff.1 hpre with heq | hpre
    · rcases find_cases htab (s.acc ++ [b]) with ⟨-, hno⟩ | ⟨a, ha, -⟩
      · exact hno e.1 (heq ▸ he)
      · exact hfind a ha
    · exact hun hovf e he hpre

theorem feedBits_accSound {s : State} (bs : Bits) (htab : tableOk s.ct) (h : AccSound s) :
    AccSound (feedBits s bs) := by
  induction bs generalizing s with
  | nil => exact h
  | cons b bs ih => exact ih (by rwa [feed_ct]) (feed_accSound b htab h)

/-- What R29 says of the accumulator when a payload byte has been fed. -/
theorem payloadByte_acc {s : State} (data : Byte) (n : Nat) (h : s.Inv) (hp : AtPayload s) :
    (payloadByte data n s).acc.length ≤ 255 ∧
      ((payloadByte data n s).accOvf = true → (payloadByte data n s).acc.length = 255) ∧
      ((payloadByte data n s).accOvf = false → ∀ e ∈ s.ct, ¬ e.2 <+: (payloadByte data n s).acc) := by
  have ⟨_, htab, _⟩ := h
  have hsound : AccSound (payloadByte data n s) := feedBits_accSound _ htab (h.accSound hp)
  obtain ⟨out, -, hframe⟩ := payloadByte_frame data n s
  have hct : (payloadByte data n s).ct = s.ct := by rw [hframe]
  rwa [AccSound, hct] at hsound

/-! What the effects do to the parts of the state that the invariant speaks of. -/

theorem AtPayload.ne_encPay {s : State} (h : AtPayload s) : s.phase ≠ .encPay := by
  rcases h with h | ⟨h, -⟩ <;> simp [h]

theorem tablePhase_ne {s : State} (h : tablePhase s = true) :
    s.phase ≠ .encPay ∧ s.phase ≠ .decPay ∧ s.phase ≠ .fault := by
  rcases (tablePhase_iff s).1 h with h | h | h | h <;> simp [h]

/-- The fault record is kept with FAULT or its absence, written by a fault, or cleared by ABORT (R20, R202). -/
theorem Effect.faultRecord {i : Instr} {s t : State} (h : Effect s i t) :
    (t.fcode = s.fcode ∧ t.finfo = s.finfo ∧ (t.phase = .fault ↔ s.phase = .fault)) ∨
      (s.phase ≠ .fault ∧ t.phase = .fault ∧ t.fcode ≠ .noFault ∧ i ≠ .nop ∧ t.finfo = encode i) ∨
      (i = .abort ∧ t = clearAll s) := by
  cases h with
  | faulted f hp hi hf => exact .inr (.inl ⟨hp, rfl, hf, hi, rfl⟩)
  | premature n data out hp => exact .inr (.inl ⟨hp.ne_fault, rfl, by simp, by simp, rfl⟩)
  | abort => exact .inr (.inr ⟨rfl, rfl⟩)
  | payloadByte _ _ hp | payloadLast _ _ _ hp | decEnd hp => exact .inl ⟨rfl, rfl, by simp [hp.ne_fault]⟩
  | _ => exact .inl ⟨rfl, rfl, by simp [*]⟩

/-- The packer is kept, and then ENC_PAY and FAULT are not left for a phase where it must be empty; or it is emptied; or
it takes a path in ENC_PAY (R28). -/
theorem Effect.packer {i : Instr} {s t : State} (h : Effect s i t) :
    (t.pkByte = s.pkByte ∧ t.pkCnt = s.pkCnt ∧
        (t.phase ≠ .encPay → t.phase ≠ .fault → s.phase ≠ .encPay ∧ s.phase ≠ .fault)) ∨
      (t.pkByte = 0#8 ∧ t.pkCnt = 0#3) ∨
      (t.phase = .encPay ∧ s.phase = .encPay ∧
        ∃ p, t.pkByte = (writeBits s p).pkByte ∧ t.pkCnt = (writeBits s p).pkCnt) := by
  cases h with
  | encStart | encEnd | abort => exact .inr (.inl ⟨rfl, rfl⟩)
  | encSym byte p out hp => exact .inr (.inr ⟨hp, hp, p, rfl, rfl⟩)
  | payloadByte _ _ hp | payloadLast _ _ _ hp | decEnd hp =>
    exact .inl ⟨rfl, rfl, fun _ _ => ⟨hp.ne_encPay, hp.ne_fault⟩⟩
  | ignored | nop | ctClear | ctOpen | ctBit | ctCommit => exact .inl ⟨rfl, rfl, And.intro⟩
  | _ => exact .inl ⟨rfl, rfl, by simp [*]⟩

/-! Each part of the invariant is kept by every effect. -/

theorem Effect.keeps_faultOk {i : Instr} {s t : State} (h : Effect s i t) (hs : s.faultOk) : t.faultOk := by
  rcases h.faultRecord with ⟨hcode, hinfo, hphase⟩ | ⟨-, hphase, hcode, hi, hinfo⟩ | ⟨-, rfl⟩
  · rwa [State.faultOk, hcode, hinfo, ne_eq, hphase]
  · simp [State.faultOk, hphase, hcode, hinfo, encode_ne_zero hi]
  · simp [State.faultOk]

theorem Effect.keeps_tableSound {i : Instr} {s t : State} (h : Effect s i t) (hs : TableSound s) : TableSound t := by
  cases h with
  | ctClear => exact TableWrite.clear.keeps_tableSound hs
  | ctOpen byte => exact (TableWrite.opened byte).keeps_tableSound hs
  | ctBit b r _ hr hlt => exact (TableWrite.bit r b hr hlt).keeps_tableSound hs
  | ctCommit r _ hr hne hnew hc => exact (TableWrite.commit r hr hne hnew hc).keeps_tableSound hs
  | abort => exact ⟨⟨nil_wf, .nil⟩, by simp⟩
  | _ => exact hs

/-- The staging register is closed in the payload phases (R27). -/
def StagingClosed (s : State) : Prop := s.phase = .encPay ∨ s.phase = .decPay → s.stg = none

theorem Effect.keeps_stagingClosed {i : Instr} {s t : State} (h : Effect s i t) (hs : StagingClosed s) :
    StagingClosed t := by
  cases h with
  | ctOpen _ htab | ctBit _ _ htab =>
    obtain ⟨henc, hdec, -⟩ := tablePhase_ne htab
    exact fun hp => absurd hp (not_or.2 ⟨henc, hdec⟩)
  | encHdrend _ hstg => exact fun _ => hstg
  | payloadByte _ _ hp => exact fun _ => hp.elim (fun h => hs (.inr h)) And.right
  | ctClear | ctCommit | abort => exact fun _ => rfl
  | ignored | nop | encHdrb | encSym | headerByte => exact hs
  | _ => exact fun hp => by simp at hp

theorem Effect.keeps_packOk {i : Instr} {s t : State} (h : Effect s i t) (hs : s.packOk) : t.packOk := by
  obtain ⟨hlow, hempty⟩ := hs
  rcases h.packer with ⟨hbyte, hcnt, hphase⟩ | ⟨hbyte, hcnt⟩ | ⟨hphase, -, p, hbyte, hcnt⟩ <;>
    rw [State.packOk, hbyte, hcnt]
  · exact ⟨hlow, fun henc hfault => hempty (hphase henc hfault).1 (hphase henc hfault).2⟩
  · simp
  · exact ⟨writeBits_low p hlow, fun henc => absurd hphase henc⟩

/-- An accumulator that is full when ACC_OVF is set is not full when it is empty. -/
theorem accOvf_of_acc_nil {s : State} (hfull : s.accOvf = true → s.acc.length = 255) (hnil : s.acc = []) :
    s.accOvf = false := by
  simpa [hnil] using hfull

theorem Effect.keeps_accOk {i : Instr} {s t : State} (h : Effect s i t) (hs : s.Inv) : t.accOk := by
  have ⟨_, _, _, _, hlen, hfull, hempty, hun⟩ := hs
  cases h with
  | ignored | nop | ctOpen | ctBit | encHdrb | encSym | headerByte => exact ⟨hlen, hfull, hempty, hun⟩
  | faulted => exact ⟨hlen, hfull, by simp, by simp⟩
  | ctClear htab | ctCommit _ htab => exact ⟨hlen, hfull, hempty, fun hp => absurd hp (tablePhase_ne htab).2.1⟩
  | encStart hp | encHdrend hp | encEnd hp | headerEnd hp | headerLast _ hp =>
    exact ⟨hlen, hfull, fun _ _ => hempty (by simp [hp]) (by simp [hp]), by simp⟩
  | payloadByte data out hp =>
    obtain ⟨hlen, hfull, hun⟩ := payloadByte_acc data 8 hs hp
    exact ⟨hlen, hfull, by simp, fun _ => hun⟩
  | payloadLast n data out hp hnil =>
    obtain ⟨-, hfull, -⟩ := payloadByte_acc data n.toNat hs hp
    have hovf := accOvf_of_acc_nil hfull hnil
    exact ⟨by simp, by simp [hovf], fun _ _ => ⟨rfl, hovf⟩, by simp⟩
  | premature n data out hp =>
    obtain ⟨hlen, hfull, -⟩ := payloadByte_acc data n.toNat hs hp
    exact ⟨hlen, hfull, by simp, by simp⟩
  | decEnd hp hnil => exact ⟨hlen, hfull, fun _ _ => ⟨hnil, accOvf_of_acc_nil hfull hnil⟩, by simp⟩
  | decStart | abort => exact ⟨by simp, by simp, by simp, by simp⟩

/-! The invariant along a run. -/

/-- The invariant from its parts, with the staging register's in the form the table commands keep. -/
theorem State.Inv.of_parts {s : State} (hfault : s.faultOk) (hsound : TableSound s) (hclosed : StagingClosed s)
    (hpack : s.packOk) (hacc : s.accOk) : s.Inv := by
  obtain ⟨htab, hlen⟩ := hsound
  refine ⟨hfault, htab, ⟨?_, hclosed⟩, hpack, hacc⟩
  cases hr : s.stg with
  | none => simp
  | some r => exact hlen r hr

theorem Effect.keeps_inv {i : Instr} {s t : State} (h : Effect s i t) (hs : s.Inv) : t.Inv := by
  have ⟨hfault, _, ⟨_, hclosed⟩, hpack, _⟩ := hs
  exact .of_parts (h.keeps_faultOk hfault) (h.keeps_tableSound hs.tableSound) (h.keeps_stagingClosed hclosed)
    (h.keeps_packOk hpack) (h.keeps_accOk hs)

/-- A fault keeps the invariant, whatever word but 0 it records. -/
theorem raiseFault_inv {s : State} {f : FCode} {w : CmdWord} (hf : f ≠ .noFault) (hw : w ≠ 0#16) (hs : s.Inv) :
    (raiseFault f w s).Inv := by
  obtain ⟨-, htab, ⟨hlen, -⟩, ⟨hlow, -⟩, hacc, hfull, -, -⟩ := hs
  exact ⟨by simp [State.faultOk, hf, hw], htab, ⟨hlen, by simp⟩, ⟨hlow, by simp⟩, hacc, hfull, by simp, by simp⟩

/-- The reset values meet the invariant, whatever the traces and the inputs to come. -/
theorem clearAll_inv (s : State) : (clearAll s).Inv :=
  .of_parts (by simp [State.faultOk]) ⟨⟨nil_wf, .nil⟩, by simp⟩ (fun _ => rfl) (by simp [State.packOk])
    (by simp [State.accOk])

/-- What a word can do: the effect of the command it decodes to, or E_ILLCMD. -/
theorem runWord_effect {w : CmdWord} {s t : State} (h : runWord w s = .next t) :
    (∃ i, decode w = .ok i ∧ encode i = w ∧ Effect s i t) ∨
      (s.phase = .fault ∧ t = s) ∨ (s.phase ≠ .fault ∧ w ≠ 0#16 ∧ t = raiseFault .illCmd w s) := by
  rcases runWord_cases w s with ⟨i, hdec, he⟩ | ⟨e, hdec, he⟩ <;> rw [he] at h
  · exact .inl ⟨i, hdec, encode_of_decode hdec, exec_effect h⟩
  · cases h
    refine .inr ((illFormed_cases w s).imp_right fun ⟨hp, he⟩ => ⟨hp, ?_, he⟩)
    rintro rfl
    have hnop : decode 0#16 = .ok .nop := rfl
    simp [hnop] at hdec

theorem runWord_inv {w : CmdWord} {s t : State} (h : runWord w s = .next t) (hs : s.Inv) : t.Inv := by
  rcases runWord_effect h with ⟨i, -, -, he⟩ | ⟨-, rfl⟩ | ⟨-, hw, rfl⟩
  · exact he.keeps_inv hs
  · exact hs
  · exact raiseFault_inv (by decide) hw hs

/-- Reset as an input, between commands or during one. -/
def IsReset (x : Input) : Prop := x = .reset ∨ ∃ w n, x = .resetDuring w n

/-- A step waits, runs a word, or takes reset, which leaves every element at its reset value (R230). -/
theorem step_word_or_reset {s t : State} (h : step s = .next t) :
    t = s ∨ (∃ w rest, s.input = .word w :: rest ∧ runWord w { s with input := rest } = .next t) ∨
      (∃ x rest, s.input = x :: rest ∧ IsReset x) ∧ t = clearAll t := by
  rcases step_cases h with ⟨-, rfl⟩ | hw | ⟨rest, hin, rfl⟩ | ⟨w, n, rest, u, hin, -, rfl⟩
  · exact .inl rfl
  · exact .inr (.inl hw)
  · exact .inr (.inr ⟨⟨_, rest, hin, .inl rfl⟩, rfl⟩)
  · exact .inr (.inr ⟨⟨_, rest, hin, .inr ⟨w, n, rfl⟩⟩, rfl⟩)

theorem step_inv {s t : State} (hs : s.Inv) (h : step s = .next t) : t.Inv := by
  rcases step_word_or_reset h with rfl | ⟨w, rest, -, hrun⟩ | ⟨-, ht⟩
  · exact hs
  · exact runWord_inv hrun hs
  · rw [ht]; exact clearAll_inv t

theorem reset_inv (inputs : List Input) : State.Inv { State.reset with input := inputs } :=
  clearAll_inv { State.reset with input := inputs }

/-- The invariant holds in every state of every run. -/
theorem Reachable.inv {s : State} (h : Reachable s) : s.Inv := by
  induction h with
  | start inputs => exact reset_inv inputs
  | step s t _ hstep ih => exact step_inv ih hstep

/-! The traces, the inputs to come and the staging register. -/

/-- The three traces of t begin with those of s (R32). -/
def TracesGrow (s t : State) : Prop := s.eout <+: t.eout ∧ s.dhdr <+: t.dhdr ∧ s.dsym <+: t.dsym

theorem TracesGrow.refl {s : State} : TracesGrow s s := ⟨List.prefix_rfl, List.prefix_rfl, List.prefix_rfl⟩

theorem Effect.tracesGrow {i : Instr} {s t : State} (h : Effect s i t) : TracesGrow s t := by
  cases h with
  | encHdrb | encHdrend | encSym | encEnd => exact ⟨List.prefix_append _ _, List.prefix_rfl, List.prefix_rfl⟩
  | headerByte => exact ⟨List.prefix_rfl, List.prefix_append _ _, List.prefix_rfl⟩
  | payloadByte | payloadLast | premature => exact ⟨List.prefix_rfl, List.prefix_rfl, List.prefix_append _ _⟩
  | _ => exact TracesGrow.refl

theorem runWord_tracesGrow {w : CmdWord} {s t : State} (h : runWord w s = .next t) : TracesGrow s t := by
  rcases runWord_effect h with ⟨i, -, -, he⟩ | ⟨-, rfl⟩ | ⟨-, -, rfl⟩
  · exact he.tracesGrow
  · exact TracesGrow.refl
  · exact TracesGrow.refl

/-- A reset during a command withdraws nothing that was there before it (R32, R230). -/
theorem cutShort_tracesGrow (n : Nat) (s t : State) : TracesGrow s (cutShort n s t) :=
  ⟨List.prefix_append _ _, List.prefix_append _ _, List.prefix_append _ _⟩

theorem step_tracesGrow {s t : State} (h : step s = .next t) : TracesGrow s t := by
  rcases step_cases h with ⟨-, rfl⟩ | ⟨w, rest, -, hrun⟩ | ⟨rest, -, rfl⟩ | ⟨w, n, rest, u, -, -, rfl⟩
  · exact TracesGrow.refl
  · exact (runWord_tracesGrow hrun :)
  · exact TracesGrow.refl
  · exact cutShort_tracesGrow n { s with input := rest } u

theorem Effect.input {i : Instr} {s t : State} (h : Effect s i t) : t.input = s.input := by
  cases h with
  | _ => rfl

theorem runWord_input {w : CmdWord} {s t : State} (h : runWord w s = .next t) : t.input = s.input := by
  rcases runWord_effect h with ⟨i, -, -, he⟩ | ⟨-, rfl⟩ | ⟨-, -, rfl⟩
  · exact he.input
  · rfl
  · rfl

/-- Only CT_OPEN opens the staging register, with its symbol and no bits (R27, R111). -/
theorem Effect.opens {i : Instr} {s t : State} (h : Effect s i t) (hs : s.stg = none) (ht : t.stg ≠ none) :
    ∃ byte, i = .ctOpen byte ∧ t.stg = some ⟨byte, []⟩ := by
  cases h with
  | ctOpen byte => exact ⟨byte, rfl, rfl⟩
  | ctBit b r _ hr => simp [hs] at hr
  | ctClear | ctCommit | abort => exact absurd rfl ht
  | _ => exact absurd hs ht

/-- Only CT_COMMIT, CT_CLEAR and ABORT close the staging register (R27). -/
theorem Effect.closes {i : Instr} {s t : State} (h : Effect s i t) (hs : s.stg ≠ none) (ht : t.stg = none) :
    i = .ctCommit ∨ i = .ctClear ∨ i = .abort := by
  cases h with
  | ctCommit => exact .inl rfl
  | ctClear => exact .inr (.inl rfl)
  | abort => exact .inr (.inr rfl)
  | ctOpen | ctBit => cases ht
  | _ => exact absurd ht hs

theorem runWord_opens {w : CmdWord} {s t : State} (h : runWord w s = .next t) (hs : s.stg = none) (ht : t.stg ≠ none) :
    ∃ byte : Byte, w = 0x20#8 ++ byte ∧ t.stg = some ⟨byte, []⟩ := by
  rcases runWord_effect h with ⟨i, -, rfl, he⟩ | ⟨-, rfl⟩ | ⟨-, -, rfl⟩
  · obtain ⟨byte, rfl, hstg⟩ := he.opens hs ht
    exact ⟨byte, rfl, hstg⟩
  · exact absurd hs ht
  · exact absurd hs ht

theorem runWord_closes {w : CmdWord} {s t : State} (h : runWord w s = .next t) (hs : s.stg ≠ none)
    (ht : t.stg = none) : w = 0x4000#16 ∨ w = 0x1000#16 ∨ w = 0xF000#16 := by
  rcases runWord_effect h with ⟨i, -, rfl, he⟩ | ⟨-, rfl⟩ | ⟨-, -, rfl⟩
  · rcases he.closes hs ht with rfl | rfl | rfl
    · exact .inl rfl
    · exact .inr (.inl rfl)
    · exact .inr (.inr rfl)
  · exact absurd ht hs
  · exact absurd ht hs

/-- In phase FAULT a word is ignored or is ABORT (R204, R205). -/
theorem runWord_of_fault {w : CmdWord} {s t : State} (h : runWord w s = .next t) (hf : s.phase = .fault) :
    t = s ∨ t = clearAll s := by
  rcases runWord_cases w s with ⟨i, -, he⟩ | ⟨e, -, he⟩ <;> rw [he] at h
  · by_cases hi : i = .abort
    · subst hi
      cases h
      exact .inr rfl
    · rw [exec_of_fault hf hi] at h
      cases h
      exact .inl rfl
  · rw [illFormed_of_fault w hf] at h
    cases h
    exact .inl rfl

/-- In phase FAULT a step changes nothing but the inputs to come, or clears every element (R204, R205). -/
theorem step_of_fault {s t : State} (h : step s = .next t) (hf : s.phase = .fault) :
    t = { s with input := t.input } ∨ t = clearAll t := by
  rcases step_word_or_reset h with rfl | ⟨w, rest, -, hrun⟩ | ⟨-, ht⟩
  · exact .inl rfl
  · rcases runWord_of_fault hrun hf with rfl | rfl
    · exact .inl rfl
    · exact .inr rfl
  · exact .inr ht

/-- A word that takes the block from another phase to FAULT is recorded whole (R23, R202). -/
theorem runWord_records {w : CmdWord} {s t : State} (h : runWord w s = .next t) (hs : s.phase ≠ .fault)
    (ht : t.phase = .fault) : t.finfo = w ∧ t.fcode ≠ .noFault := by
  rcases runWord_effect h with ⟨i, -, hw, he⟩ | ⟨hf, -⟩ | ⟨-, -, rfl⟩
  · rcases he.faultRecord with ⟨-, -, hphase⟩ | ⟨-, -, hcode, -, hinfo⟩ | ⟨-, rfl⟩
    · exact absurd (hphase.1 ht) hs
    · exact ⟨hinfo.trans hw, hcode⟩
    · cases ht
  · exact absurd hf hs
  · exact ⟨rfl, by simp⟩

/-- The packer outside ENC_PAY stays empty when a word faults (R28, R202). -/
theorem runWord_packer_empty {w : CmdWord} {s t : State} (h : runWord w s = .next t) (hs : s.phase ≠ .encPay)
    (hempty : s.pkCnt = 0#3 ∧ s.pkByte = 0#8) : t.pkCnt = 0#3 ∧ t.pkByte = 0#8 := by
  rcases runWord_effect h with ⟨i, -, -, he⟩ | ⟨-, rfl⟩ | ⟨-, -, rfl⟩
  · rcases he.packer with ⟨hbyte, hcnt, -⟩ | ⟨hbyte, hcnt⟩ | ⟨-, hp, -⟩
    · rwa [hbyte, hcnt]
    · exact ⟨hcnt, hbyte⟩
    · exact absurd hp hs
  · exact hempty
  · exact hempty

/-! STATUS and the codes of the faults (R22, R30). -/

/-- The fields of a word put together of six, of the widths STATUS has. -/
theorem extractLsb'_of_fields (a : BitVec 16) (b : BitVec 5) (c : BitVec 3) (d : BitVec 4) (e : BitVec 1)
    (f : BitVec 3) :
    let w := a ++ b ++ c ++ d ++ e ++ f
    w.extractLsb' 0 3 = f ∧ w.extractLsb' 3 1 = e ∧ w.extractLsb' 4 4 = d ∧ w.extractLsb' 8 3 = c ∧
      w.extractLsb' 11 5 = b ∧ w.extractLsb' 16 16 = a := by
  simp (disch := decide) only [BitVec.extractLsb'_append_eq_of_le, BitVec.extractLsb'_append_eq_of_add_le,
    BitVec.extractLsb'_eq_self, Nat.reduceSub, and_self]

/-- The fields of STATUS (R30). -/
theorem status_fields (s : State) :
    (status s).extractLsb' 0 3 = phaseCode s.phase ∧ (status s).extractLsb' 3 1 = BitVec.ofBool (stgOpen s) ∧
      (status s).extractLsb' 4 4 = faultCode s.fcode ∧ (status s).extractLsb' 8 3 = s.tailBits ∧
      (status s).extractLsb' 11 5 = 0#5 ∧ (status s).extractLsb' 16 16 = s.finfo :=
  extractLsb'_of_fields _ _ _ _ _ _

/-- The nine faults have the values 1 to 9 (R190). -/
theorem faultCode_range {f : FCode} (hf : f ≠ .noFault) : 1 ≤ (faultCode f).toNat ∧ (faultCode f).toNat ≤ 9 := by
  cases f with
  | noFault => exact absurd rfl hf
  | _ => decide

/-! The statements. -/

/-- Settles O52: every effect of a command, an ill-formed word and reset keep each part of the invariant. -/
theorem everyStepKeepsTheInvariant : Obligations.EveryStepKeepsTheInvariant :=
  fun _ _ => step_inv

/-- Settles O53: the reset values meet each part of the invariant. -/
theorem resetMeetsTheInvariant : Obligations.ResetMeetsTheInvariant :=
  reset_inv

/-- Settles O54: the table's part of the invariant, read through CTRead. -/
theorem reachableTablesArePrefixFree : Obligations.ReachableTablesArePrefixFree := by
  intro s hs
  obtain ⟨-, ⟨⟨-, hwf⟩, hfree⟩, -⟩ := hs.inv
  refine ⟨fun x p hp => (hwf _ (mem_of_read hp)).2, fun x y p q hxy hp hq => ?_⟩
  have hne : x.toNat ≠ y.toNat := fun h => hxy (BitVec.eq_of_toNat_eq h)
  exact ⟨not_prefix_of_ne hfree (mem_of_read hp) (mem_of_read hq) hne,
    not_prefix_of_ne hfree (mem_of_read hq) (mem_of_read hp) hne.symm⟩

/-- Settles O55: the accumulator's part of the invariant, with the table read through CTRead. -/
theorem reachableAccumulatorsAreUnmatched : Obligations.ReachableAccumulatorsAreUnmatched := by
  intro s hs
  obtain ⟨-, -, -, -, hlen, hfull, hempty, hun⟩ := hs.inv
  refine ⟨hlen, hfull, ?_, fun hp hovf x p hread => ?_⟩
  · rintro (hp | hp) <;> exact hempty (by simp [hp]) (by simp [hp])
  · have hno : ¬ p <+: s.acc := hun hp hovf _ (mem_of_read hread)
    exact ⟨fun heq => hno (heq ▸ List.prefix_rfl), hno⟩

/-- Settles O11: reset as an input is clearAll, and what a command cut short had added to a trace is cut to its first
n bytes. -/
theorem resetInputClearsAllButTheTraces : Obligations.ResetInputClearsAllButTheTraces := by
  refine ⟨fun s rest hin => ?_, fun s t rest w n es hs ds hin hrun hes hhs hds => ?_, fun es hs ds inp => ?_,
    fun es hs ds => ?_⟩
  · rw [step_of_input hin]; rfl
  · rw [step_of_input hin]
    simp only [takeInput, hrun, cutShort_eq, hes, hhs, hds, deliveredOnly_append, runWord_input hrun]
  · exact ⟨(by decide : status State.reset = 0#32), rfl⟩
  · exact step_of_no_input rfl

/-- Settles O17: the fault record's part of the invariant, and that a faulting word is recorded whole. -/
theorem theFaultingWordIsRecorded : Obligations.TheFaultingWordIsRecorded := by
  refine ⟨fun s hs => ?_, fun s t w rest hin hs h ht => ?_⟩
  · obtain ⟨⟨hphase, hinfo⟩, -⟩ := hs.inv
    exact ⟨(not_congr hphase).trans not_not, hinfo.symm, fun hp => by rw [hphase.2 hp]; rfl,
      fun hp => faultCode_range fun hcode => hphase.1 hcode hp⟩
  · rw [step_of_input hin] at h
    exact runWord_records h hs ht

/-- Settles O49: no effect, fault or reset withdraws a byte of a trace. -/
theorem tracesOnlyGrow : Obligations.TracesOnlyGrow :=
  ⟨fun _ _ => step_tracesGrow, rfl, rfl, rfl⟩

/-- Settles O50: the effects that open and close the staging register are those of the commands named, by their words,
and the invariant keeps it closed in the payload phases. -/
theorem stagingOpensAndClosesByItsCommands : Obligations.StagingOpensAndClosesByItsCommands := by
  refine ⟨fun s t h hs ht => ?_, fun s t h hs ht => ?_, fun s hs => ?_⟩
  · rcases step_word_or_reset h with rfl | ⟨w, rest, hin, hrun⟩ | ⟨-, hclear⟩
    · exact absurd hs ht
    · obtain ⟨byte, rfl, hstg⟩ := runWord_opens hrun hs ht
      exact ⟨byte, rest, hin, hstg⟩
    · rw [hclear] at ht
      exact absurd rfl ht
  · rcases step_word_or_reset h with rfl | ⟨w, rest, hin, hrun⟩ | ⟨⟨x, rest, hin, hx⟩, -⟩
    · exact absurd ht hs
    · refine ⟨_, rest, hin, ?_⟩
      rcases runWord_closes hrun hs ht with rfl | rfl | rfl
      · exact .inl rfl
      · exact .inr (.inl rfl)
      · exact .inr (.inr (.inl rfl))
    · exact ⟨x, rest, hin, .inr (.inr (.inr hx))⟩
  · obtain ⟨-, -, ⟨-, hclosed⟩, -⟩ := hs.inv
    exact hclosed

/-- Settles O51: read off the effects, each of which names the elements its command writes. -/
theorem eachElementIsWrittenByItsCommands : Obligations.EachElementIsWrittenByItsCommands := by
  intro i s t h
  cases exec_effect h with
  | ignored | nop => simp
  | faulted f hs => simp [hs]
  | premature n data out hs => simp [hs.ne_fault]
  | _ => simp

/-- Settles O56: the packer's part of the invariant; a fault outside ENC_PAY leaves the packer as it was, and in FAULT a
step keeps it or clears every element. -/
theorem reachablePackersHoldOnlyWaitingBits : Obligations.ReachablePackersHoldOnlyWaitingBits := by
  refine ⟨fun s hs => ?_, fun s t hs henc hfault h ht => ?_, fun s t hs h => ?_⟩
  · obtain ⟨-, -, -, hpack, -⟩ := hs.inv
    exact hpack
  · obtain ⟨-, -, -, ⟨-, hempty⟩, -⟩ := hs
    rcases step_word_or_reset h with rfl | ⟨w, rest, -, hrun⟩ | ⟨-, hclear⟩
    · exact absurd ht hfault
    · exact runWord_packer_empty hrun henc (hempty henc hfault)
    · rw [hclear] at ht
      cases ht
  · rcases step_of_fault h hs with ht | ht <;> rw [ht]
    · exact (if_pos hs).mpr ⟨rfl, rfl⟩
    · exact ⟨rfl, rfl⟩

/-- Settles O10: each element of the reset state, and an empty table has no valid entry. -/
theorem resetLeavesTheResetValues : Obligations.ResetLeavesTheResetValues :=
  ⟨rfl, rfl, rfl, rfl, read_nil, rfl, rfl, rfl, rfl, rfl⟩

/-- Settles O12: STATUS is its fields one after the other, and the codes are those of R21 and R190. -/
theorem statusWordFields : Obligations.StatusWordFields := by
  refine ⟨fun s => ?_, by decide⟩
  obtain ⟨hphase, hopen, hcode, htail, hreserved, hinfo⟩ := status_fields s
  have hbit : (status s).getLsbD 3 = stgOpen s := by simpa using congrArg (·.getLsbD 0) hopen
  exact ⟨hphase, hbit, hcode, htail, hreserved, hinfo⟩

end Sys2Proof.Machine

/-! PROOFS for the statements of 20_memory.md: what CTMatch finds, the writes of the table, and the table frozen while a
payload is coded. -/

namespace Sys2Proof.Machine

/-! CTMatch (R51). -/

/-- In a table in the canonical form CTMatch is the inverse of CTRead. -/
theorem mem_ctMatch {s : State} (hwf : s.ct.wf) {sym : Byte} {p : Bits} :
    sym ∈ ctMatch s p ↔ ctRead s sym = some p := by
  constructor
  · intro h
    obtain ⟨a, ha, rfl⟩ := List.mem_map.1 h
    exact read_symbol hwf (mem_find.1 ha)
  · intro h
    exact List.mem_map.2 ⟨sym.toNat, mem_find.2 (mem_of_read h), by simp⟩

/-! The commands that write the table (R52), and the phases in which none does (R63, R115). -/

/-- A command that changes the table is CT_COMMIT, which writes the staged record at an entry with V = 0, or it is
CT_CLEAR or ABORT, which leave no valid entry (R52). -/
theorem Effect.changes_table {i : Instr} {s t : State} (h : Effect s i t) (hct : t.ct ≠ s.ct) :
    (i = .ctCommit ∧ ∃ r, s.stg = some r ∧ ctRead s r.sym = none ∧ t.ct = s.ct.write r.sym.toNat r.path) ∨
      ((i = .ctClear ∨ i = .abort) ∧ t.ct = []) := by
  cases h with
  | ctCommit r _ hr _ hnew => exact .inl ⟨rfl, r, hr, hnew, rfl⟩
  | ctClear => exact .inr ⟨.inl rfl, rfl⟩
  | abort => exact .inr ⟨.inr rfl, rfl⟩
  | _ => exact absurd rfl hct

theorem runWord_changes_table {w : CmdWord} {s t : State} (h : runWord w s = .next t) (hct : t.ct ≠ s.ct) :
    (w = 0x4000#16 ∧ ∃ r, s.stg = some r ∧ ctRead s r.sym = none ∧ t.ct = s.ct.write r.sym.toNat r.path) ∨
      ((w = 0x1000#16 ∨ w = 0xF000#16) ∧ t.ct = []) := by
  rcases runWord_effect h with ⟨i, -, rfl, he⟩ | ⟨-, rfl⟩ | ⟨-, -, rfl⟩
  · rcases he.changes_table hct with ⟨rfl, hwrite⟩ | ⟨rfl | rfl, hnil⟩
    · exact .inl ⟨rfl, hwrite⟩
    · exact .inr ⟨.inl rfl, hnil⟩
    · exact .inr ⟨.inr rfl, hnil⟩
  · exact absurd rfl hct
  · exact absurd rfl hct

theorem tablePhase_of_payload {s : State} (h : s.phase = .encPay ∨ s.phase = .decPay) : tablePhase s = false := by
  rw [Bool.eq_false_iff]
  intro htab
  obtain ⟨henc, hdec, -⟩ := tablePhase_ne htab
  exact h.elim henc hdec

/-- Where the table commands are not legal, no command but ABORT writes the table or the staging register (R115). -/
theorem Effect.keeps_table {i : Instr} {s t : State} (h : Effect s i t) (hs : tablePhase s = false)
    (hi : i ≠ .abort) : t.ct = s.ct ∧ t.stg = s.stg := by
  cases h with
  | ctClear htab | ctOpen _ htab | ctBit _ _ htab | ctCommit _ htab => simp [hs] at htab
  | abort => exact absurd rfl hi
  | _ => exact ⟨rfl, rfl⟩

theorem runWord_keeps_table {w : CmdWord} {s t : State} (h : runWord w s = .next t) (hs : tablePhase s = false)
    (hw : w ≠ 0xF000#16) : t.ct = s.ct ∧ t.stg = s.stg := by
  rcases runWord_effect h with ⟨i, -, rfl, he⟩ | ⟨-, rfl⟩ | ⟨-, -, rfl⟩
  · exact he.keeps_table hs fun hi => hw (congrArg encode hi)
  · exact ⟨rfl, rfl⟩
  · exact ⟨rfl, rfl⟩

/-- A command that is not legal where it is given raises E_SEQ (R88, R192). -/
theorem guarded_of_illegal {s : State} (w : CmdWord) {legal : Bool} (body : State → State) (hf : s.phase ≠ .fault)
    (hl : legal = false) : guarded w legal body s = raiseFault .seq w s := by
  simp [guarded, hf, hl]

/-- A table command outside the phases in which it is legal raises E_SEQ (R115, R184). -/
theorem exec_tableCommand_of_illegal {i : Instr} {s : State} (hi : tableOrNop i = true) (hnop : i ≠ .nop)
    (hf : s.phase ≠ .fault) (hs : tablePhase s = false) : exec i s = .next (raiseFault .seq (encode i) s) := by
  cases i with
  | nop => exact absurd rfl hnop
  | ctClear | ctOpen | ctBit | ctCommit => exact congrArg _ (guarded_of_illegal _ _ hf (by simp [hs]))
  | _ => cases hi

/-! The statements. -/

/-- Settles O27: CTMatch is the inverse of CTRead, and in a prefix-free table no two entries have one path. -/
theorem ctMatchFindsTheOneSymbol : Obligations.CtMatchFindsTheOneSymbol := by
  intro s p hok
  refine ⟨fun sym => mem_ctMatch hok.1, ?_⟩
  rcases find_cases hok p with ⟨hf, -⟩ | ⟨a, hf, -⟩ <;> simp [ctMatch, hf]

/-- Settles O28: of the effects only those of CT_COMMIT, CT_CLEAR and ABORT write the table, reset clears it, and a read
after CT_COMMIT's write is the staged path at the staged symbol and as before elsewhere. -/
theorem tableWritesAreWhole : Obligations.TableWritesAreWhole := by
  intro s t h hct
  rcases step_word_or_reset h with rfl | ⟨w, rest, hin, hrun⟩ | ⟨⟨x, rest, hin, hx⟩, hclear⟩
  · exact absurd rfl hct
  · rcases runWord_changes_table hrun hct with ⟨rfl, r, hr, hnew, hwrite⟩ | ⟨hw, hnil⟩
    · exact .inl ⟨rest, r, hin, hr, hnew, fun a => by rw [hwrite, read_write]⟩
    · exact .inr ⟨hnil, _, rest, hin, hw.imp (congrArg _) fun hw => .inl (congrArg _ hw)⟩
  · exact .inr ⟨congrArg State.ct hclear, x, rest, hin, .inr (.inr hx)⟩

/-- Settles O48: the payload phases are not table phases, so no effect but ABORT's writes the table or the staging
register, and a table command is out of sequence. -/
theorem tableIsFrozenInPayloadPhases : Obligations.TableIsFrozenInPayloadPhases := by
  refine ⟨fun w s t hp hw h => runWord_keeps_table h (tablePhase_of_payload hp) hw, fun i s hp hi hnop => ?_⟩
  have hf : s.phase ≠ .fault := by rcases hp with hp | hp <;> simp [hp]
  exact exec_tableCommand_of_illegal hi hnop hf (tablePhase_of_payload hp)

end Sys2Proof.Machine

/-! PROOFS for the statements of 30_encoding.md: the fields of a word put together from them, the decoder as the inverse
of the encoder, the rows of the opcode table, which words are well-formed, and the settled statements. -/

namespace Sys2Proof.Machine

/-! The fields of a word that is put together from its fields (R80 to R84). -/

@[simp] theorem opOf_append (op : BitVec 4) (arg : BitVec 12) : opOf (op ++ arg) = op :=
  BitVec.extractLsb'_append_eq_left

@[simp] theorem argOf_append (op : BitVec 4) (arg : BitVec 12) : argOf (op ++ arg) = arg :=
  BitVec.extractLsb'_append_eq_right

@[simp] theorem byteOf_append (upper : BitVec 8) (byte : Byte) : byteOf (upper ++ byte) = byte :=
  BitVec.extractLsb'_append_eq_right

/-- The two halves of the upper byte (R82, R84). -/
theorem upperByte_fields (op x : BitVec 4) (byte : Byte) :
    opOf (op ++ x ++ byte) = op ∧ (op ++ x ++ byte : CmdWord).extractLsb' 8 4 = x := by
  have hop : opOf (op ++ (x ++ byte)) = op := opOf_append op (x ++ byte)
  have hx : (op ++ x ++ byte : CmdWord).extractLsb' 8 4 = (op ++ x).extractLsb' 0 4 :=
    BitVec.extractLsb'_append_eq_of_le (le_refl 8)
  refine ⟨?_, hx.trans BitVec.extractLsb'_append_eq_right⟩
  rwa [BitVec.append_assoc, BitVec.cast_eq]

@[simp] theorem opOf_wordB (op : BitVec 4) (byte : Byte) : opOf (wordB op byte) = op :=
  (upperByte_fields op 0#4 byte).1

/-- A word of format D (R84). -/
def wordD (last : Bool) (nvm1 : BitVec 3) (data : Byte) : CmdWord := 0xB#4 ++ BitVec.ofBool last ++ nvm1 ++ data

theorem encode_decByte (data : Byte) : encode (.decByte data) = wordD false 7#3 data := rfl

theorem encode_decByteLast (n : BitVec 4) (data : Byte) :
    encode (.decByteLast n data) = wordD true ((n - 1#4).truncate 3) data := rfl

/-- last and nvm1 together are the lower half of the upper byte. -/
theorem wordD_eq (last : Bool) (nvm1 : BitVec 3) (data : Byte) :
    wordD last nvm1 data = 0xB#4 ++ (BitVec.ofBool last ++ nvm1) ++ data := by
  rw [wordD, BitVec.append_assoc (x₃ := nvm1), BitVec.cast_eq]

@[simp] theorem opOf_wordD (last : Bool) (nvm1 : BitVec 3) (data : Byte) : opOf (wordD last nvm1 data) = 0xB#4 := by
  rw [wordD_eq]
  exact (upperByte_fields _ _ _).1

@[simp] theorem byteOf_wordD (last : Bool) (nvm1 : BitVec 3) (data : Byte) : byteOf (wordD last nvm1 data) = data :=
  byteOf_append _ _

/-- last and nvm1 stand side by side in bits 11:8 (R84). -/
theorem last_nvm1_of_upper {w : CmdWord} {last : Bool} {nvm1 : BitVec 3}
    (h : w.extractLsb' 8 4 = BitVec.ofBool last ++ nvm1) : w.getLsbD 11 = last ∧ w.extractLsb' 8 3 = nvm1 := by
  constructor
  · have hlast : (BitVec.ofBool last ++ nvm1).getLsbD 3 = last := by
      clear h
      revert last nvm1
      decide
    rw [← h] at hlast
    simpa using hlast
  · have hlow : (w.extractLsb' 8 4).extractLsb' 0 3 = nvm1 := by rw [h, BitVec.extractLsb'_append_eq_right]
    rw [← hlow]
    ext k hk
    simp [show k < 4 by omega]

theorem wordD_fields (last : Bool) (nvm1 : BitVec 3) (data : Byte) :
    (wordD last nvm1 data).getLsbD 11 = last ∧ (wordD last nvm1 data).extractLsb' 8 3 = nvm1 := by
  rw [wordD_eq]
  exact last_nvm1_of_upper (upperByte_fields _ _ _).2

/-! The decoder on the word of a command (R81 to R87). -/

theorem formatB_wordB (op : BitVec 4) (byte : Byte) (mk : Byte → Instr) :
    formatB (wordB op byte) mk = .ok (mk byte) := by
  have hzero : (wordB op byte).extractLsb' 8 4 = 0#4 := (upperByte_fields op 0#4 byte).2
  rw [formatB, if_pos hzero, wordB, byteOf_append]

theorem decode_wordD (last : Bool) (nvm1 : BitVec 3) (data : Byte) :
    decode (wordD last nvm1 data) =
      if last then .ok (.decByteLast (nvm1.zeroExtend 4 + 1#4) data)
      else if nvm1 = 7#3 then .ok (.decByte data) else .error .partialByteNotLast := by
  obtain ⟨hlast, hnvm1⟩ := wordD_fields last nvm1 data
  have hformat : decode (wordD last nvm1 data) = formatD (wordD last nvm1 data) := by
    rw [decode, opOf_wordD]
    rfl
  simp only [hformat, formatD, hlast, hnvm1, byteOf_wordD]

/-- nvalid from 1 to 8 is nvm1 + 1 (R84). -/
theorem nvm1_add_one {n : BitVec 4} (h : 1 ≤ n.toNat ∧ n.toNat ≤ 8) :
    ((n - 1#4).truncate 3 : BitVec 3).zeroExtend 4 + 1#4 = n := by
  revert n
  decide

/-- The word of a well-formed command decodes to it: in format N and T by evaluation, in the others by their fields. -/
theorem decode_encode {i : Instr} (hi : i.wf = true) : decode (encode i) = .ok i := by
  cases i with
  | ctOpen byte | encHdrb byte | encSym byte =>
    rw [decode, encode, opOf_wordB]
    exact formatB_wordB _ _ _
  | ctBit b => cases b <;> rfl
  | decByte data =>
    rw [encode_decByte, decode_wordD]
    rfl
  | decByteLast n data =>
    rw [encode_decByteLast, decode_wordD, nvm1_add_one (of_decide_eq_true hi)]
    rfl
  | reservedD arg | reservedE arg =>
    rw [decode, encode, opOf_append, argOf_append]
    rfl
  | _ => rfl

/-! What each format answers, and that it is well-formed (R81 to R84). -/

theorem formatN_ok_iff {w : CmdWord} {i j : Instr} : formatN w i = .ok j ↔ argOf w = 0#12 ∧ i = j := by
  unfold formatN
  split <;> simp [*]

theorem formatB_ok_iff {w : CmdWord} {mk : Byte → Instr} {j : Instr} :
    formatB w mk = .ok j ↔ w.extractLsb' 8 4 = 0#4 ∧ mk (byteOf w) = j := by
  unfold formatB
  split <;> simp [*]

theorem formatT_ok_iff {w : CmdWord} {mk : Bool → Instr} {j : Instr} :
    formatT w mk = .ok j ↔ w.extractLsb' 1 11 = 0#11 ∧ mk (w.getLsbD 0) = j := by
  unfold formatT
  split <;> simp [*]

theorem formatD_ok_iff {w : CmdWord} {j : Instr} :
    formatD w = .ok j ↔
      (w.getLsbD 11 = true ∧ .decByteLast ((w.extractLsb' 8 3).zeroExtend 4 + 1#4) (byteOf w) = j) ∨
        (w.getLsbD 11 = false ∧ w.extractLsb' 8 3 = 7#3 ∧ .decByte (byteOf w) = j) := by
  unfold formatD
  cases w.getLsbD 11 with
  | true => simp
  | false =>
    by_cases hfull : w.extractLsb' 8 3 = 7#3 <;> simp [hfull]

/-- nvm1 + 1 is from 1 to 8 (R84). -/
theorem decByteLast_wf (nvm1 : BitVec 3) (data : Byte) :
    (Instr.decByteLast (nvm1.zeroExtend 4 + 1#4) data).wf = true := by
  have hrange : ∀ n : BitVec 3, 1 ≤ (n.zeroExtend 4 + 1#4).toNat ∧ (n.zeroExtend 4 + 1#4).toNat ≤ 8 := by decide
  exact decide_eq_true (hrange nvm1)

theorem wf_of_decode {w : CmdWord} {i : Instr} (h : decode w = .ok i) : i.wf = true := by
  unfold decode at h
  split at h
  case h_3 | h_7 | h_9 =>
    obtain ⟨-, rfl⟩ := formatB_ok_iff.1 h
    rfl
  case h_4 =>
    obtain ⟨-, rfl⟩ := formatT_ok_iff.1 h
    rfl
  case h_12 =>
    rcases formatD_ok_iff.1 h with ⟨-, rfl⟩ | ⟨-, -, rfl⟩
    · exact decByteLast_wf _ _
    · rfl
  case h_14 | h_15 =>
    cases h
    rfl
  all_goals
    obtain ⟨-, rfl⟩ := formatN_ok_iff.1 h
    rfl

/-! The rows of the opcode table (R85). -/

theorem decode_of_eq_encode {w : CmdWord} {i : Instr} (hw : w = encode i) (hi : i.wf = true) : decode w = .ok i :=
  hw ▸ decode_encode hi

/-- A word that meets a row's mask and match is the row's fixed bits and its own operand bits below them. -/
theorem eq_append_of_and_mask {m n : Nat} {w : BitVec (m + n)} {fixed : BitVec m}
    (h : w &&& (BitVec.allOnes m ++ 0#n) = fixed ++ 0#n) : w = fixed ++ w.extractLsb' 0 n := by
  have hw : w.extractLsb' n m ++ w.extractLsb' 0 n = w := BitVec.extractLsb'_append_extractLsb'
  rw [← hw, BitVec.and_append, BitVec.and_allOnes, BitVec.and_zero, BitVec.append_left_inj] at h
  rw [← h, hw]

/-- A word of the row of DEC_BYTE with last = 1 is made of its own nvm1 and data. -/
theorem eq_wordD_of_and_mask {w : CmdWord} (h : w &&& 0xF800#16 = 0xB800#16) :
    w = wordD true (w.extractLsb' 8 3) (byteOf w) := by
  have hw : w = (0xB#4 ++ 1#1) ++ w.extractLsb' 0 11 := eq_append_of_and_mask (n := 11) h
  have hfields : w.extractLsb' 8 3 ++ byteOf w = w.extractLsb' 0 11 :=
    BitVec.extractLsb'_append_extractLsb'_eq_extractLsb' (by rfl)
  rw [← hfields] at hw
  rwa [wordD, BitVec.append_assoc, BitVec.cast_eq]

theorem decode_of_decByteLast_row {w : CmdWord} (h : w &&& 0xF800#16 = 0xB800#16) :
    decode w = .ok (.decByteLast ((w.extractLsb' 8 3).zeroExtend 4 + 1#4) (byteOf w)) :=
  (congrArg decode (eq_wordD_of_and_mask h)).trans (decode_wordD _ _ _)

/-- nvm1 cut out by shift and mask. -/
theorem nvm1_eq_shift_and (w : CmdWord) : ((w >>> 8) &&& 7#16).truncate 4 = (w.extractLsb' 8 3).zeroExtend 4 := by
  have hmod : w.toNat >>> 8 % 16 &&& 7 = w.toNat >>> 8 % 16 % 8 := Nat.and_two_pow_sub_one_eq_mod _ 3
  have hwide : w.toNat >>> 8 % 8 % 16 = w.toNat >>> 8 % 8 := by omega
  apply BitVec.eq_of_toNat_eq
  simp [hmod, hwide]

/-! Which words are well-formed (R80, R85, R86). -/

/-- The 14 commands, which the reserved opcodes are not. -/
def isCommand : Instr → Bool
  | .reservedD _ | .reservedE _ => false
  | _ => true

theorem wellFormedWord_iff_command {w : CmdWord} :
    wellFormedWord w = true ↔ ∃ i, decode w = .ok i ∧ isCommand i = true := by
  unfold wellFormedWord
  cases decode w with
  | error e => simp
  | ok i => cases i <;> simp [isCommand]

/-- The formats N, B, T and D of R81 to R84, and the reserved opcodes' lack of one. -/
inductive WordFormat where
  | n | b | t | d | reserved
  deriving DecidableEq

/-- The format of an opcode's words (R85). -/
def formatOf (op : BitVec 4) : WordFormat :=
  match op with
  | 0x2#4 | 0x6#4 | 0x8#4 => .b
  | 0x3#4 => .t
  | 0xB#4 => .d
  | 0xD#4 | 0xE#4 => .reserved
  | _ => .n

/-- The opcodes of each format (R85). -/
theorem formatOf_iff (op : BitVec 4) :
    (formatOf op = .n ↔ op ∈ [0x0#4, 0x1#4, 0x4#4, 0x5#4, 0x7#4, 0x9#4, 0xA#4, 0xC#4, 0xF#4]) ∧
      (formatOf op = .b ↔ op ∈ [0x2#4, 0x6#4, 0x8#4]) ∧ (formatOf op = .t ↔ op = 0x3#4) ∧
      (formatOf op = .d ↔ op = 0xB#4) ∧ (formatOf op = .reserved ↔ op ∈ [0xD#4, 0xE#4]) := by
  revert op
  decide

/-- What a format asks of the bits below the opcode (R81 to R84). -/
def WordFormat.Fits (w : CmdWord) : WordFormat → Prop
  | .n => argOf w = 0#12
  | .b => w.extractLsb' 8 4 = 0#4
  | .t => w.extractLsb' 1 11 = 0#11
  | .d => w.getLsbD 11 = true ∨ w.extractLsb' 8 3 = 7#3
  | .reserved => False

theorem formatN_command_iff {w : CmdWord} {i : Instr} (hi : isCommand i = true) :
    (∃ j, formatN w i = .ok j ∧ isCommand j = true) ↔ WordFormat.n.Fits w := by
  simp [formatN_ok_iff, WordFormat.Fits, hi]

theorem formatB_command_iff {w : CmdWord} {mk : Byte → Instr} (hmk : ∀ byte, isCommand (mk byte) = true) :
    (∃ j, formatB w mk = .ok j ∧ isCommand j = true) ↔ WordFormat.b.Fits w := by
  simp [formatB_ok_iff, WordFormat.Fits, hmk]

theorem formatT_command_iff {w : CmdWord} :
    (∃ j, formatT w .ctBit = .ok j ∧ isCommand j = true) ↔ WordFormat.t.Fits w := by
  simp [formatT_ok_iff, WordFormat.Fits, isCommand]

theorem formatD_command_iff {w : CmdWord} :
    (∃ j, formatD w = .ok j ∧ isCommand j = true) ↔ WordFormat.d.Fits w := by
  constructor
  · rintro ⟨j, hj, -⟩
    exact (formatD_ok_iff.1 hj).imp (·.1) (·.2.1)
  · intro h
    cases hlast : w.getLsbD 11 with
    | true => exact ⟨_, formatD_ok_iff.2 (.inl ⟨hlast, rfl⟩), rfl⟩
    | false => exact ⟨_, formatD_ok_iff.2 (.inr ⟨hlast, h.resolve_left (Bool.eq_false_iff.1 hlast), rfl⟩), rfl⟩

/-- A word is well-formed exactly when it fits the format of its opcode. -/
theorem wellFormedWord_iff_fits {w : CmdWord} : wellFormedWord w = true ↔ (formatOf (opOf w)).Fits w := by
  rw [wellFormedWord_iff_command, decode]
  split
  case h_3 hop | h_7 hop | h_9 hop =>
    rw [hop]
    exact formatB_command_iff fun _ => rfl
  case h_4 hop =>
    rw [hop]
    exact formatT_command_iff
  case h_12 hop =>
    rw [hop]
    exact formatD_command_iff
  case h_14 hop | h_15 hop =>
    rw [hop]
    simp [isCommand, formatOf, WordFormat.Fits]
  case h_16 =>
    have hop : formatOf (opOf w) = .n := by
      generalize opOf w = op at *
      revert op
      decide
    rw [hop]
    exact formatN_command_iff rfl
  all_goals
    rename_i hop
    rw [hop]
    exact formatN_command_iff rfl

/-! Words and fields as numbers (R85). -/

theorem field_eq_iff {w : CmdWord} {s n : Nat} {x : BitVec n} :
    w.extractLsb' s n = x ↔ w.toNat / 2 ^ s % 2 ^ n = x.toNat := by
  rw [← BitVec.toNat_inj, BitVec.extractLsb'_toNat, Nat.shiftRight_eq_div_pow]

theorem opOf_toNat (w : CmdWord) : (opOf w).toNat = w.toNat / 4096 := by
  have hop : w.toNat / 2 ^ 12 % 2 ^ 4 = (opOf w).toNat := field_eq_iff.1 rfl
  have hlt : w.toNat < 2 ^ 16 := w.isLt
  omega

theorem fits_n_iff {w : CmdWord} : WordFormat.n.Fits w ↔ w.toNat % 4096 = 0 := by
  rw [WordFormat.Fits, argOf, field_eq_iff, BitVec.toNat_ofNat]
  omega

theorem fits_b_iff {w : CmdWord} : WordFormat.b.Fits w ↔ w.toNat % 4096 < 0x100 := by
  rw [WordFormat.Fits, field_eq_iff, BitVec.toNat_ofNat]
  omega

theorem fits_t_iff {w : CmdWord} : WordFormat.t.Fits w ↔ w.toNat % 4096 < 2 := by
  rw [WordFormat.Fits, field_eq_iff, BitVec.toNat_ofNat]
  omega

theorem fits_d_iff {w : CmdWord} : WordFormat.d.Fits w ↔ 0x700 ≤ w.toNat % 4096 := by
  rw [WordFormat.Fits, field_eq_iff, BitVec.toNat_ofNat, BitVec.getLsbD, Nat.testBit_eq_decide_div_mod_eq,
    decide_eq_true_iff]
  omega

/-! What an ill-formed word does (R86, R191), and which bits make it so. -/

/-- A field is not 0 exactly when one of its bits is 1. -/
theorem field_ne_zero_iff {w : CmdWord} {s n : Nat} :
    w.extractLsb' s n ≠ 0#n ↔ ∃ k, s ≤ k ∧ k < s + n ∧ w.getLsbD k = true := by
  constructor
  · contrapose!
    intro h
    refine BitVec.eq_of_getLsbD_eq fun j hj => ?_
    simpa [hj] using h (s + j) (by omega) (by omega)
  · rintro ⟨k, hs, hk, hbit⟩ h
    have hzero := congrArg (·.getLsbD (k - s)) h
    simp [show k - s < n by omega, show s + (k - s) = k by omega, hbit] at hzero

theorem illFormed_of_ne_fault {s : State} (w : CmdWord) (hf : s.phase ≠ .fault) :
    illFormed w s = raiseFault .illCmd w s := by
  simp [illFormed, hf]

/-- A word that decodes to no command is ill-formed, whether its opcode is reserved or its format broken. -/
theorem runWord_of_not_wellFormed {w : CmdWord} (h : wellFormedWord w = false) (s : State) :
    runWord w s = .next (illFormed w s) := by
  rcases runWord_cases w s with ⟨i, hdec, hrun⟩ | ⟨e, -, hrun⟩
  · have hi : isCommand i ≠ true := fun hi => by simp [wellFormedWord_iff_command.2 ⟨i, hdec, hi⟩] at h
    rw [hrun, ← encode_of_decode hdec]
    cases i with
    | reservedD arg | reservedE arg => rfl
    | _ => exact absurd rfl hi
  · exact hrun

/-! The statements. -/

/-- Settles O2: the fields that the encoder puts together are those that the decoder cuts out. -/
theorem decodeOfEncodeIsTheCommand : Obligations.DecodeOfEncodeIsTheCommand :=
  fun _ => decode_encode

/-- Settles O3: a format answers only where its must-be-zero bits are 0, and nvm1 + 1 is from 1 to 8. -/
theorem encodeOfDecodeIsTheWord : Obligations.EncodeOfDecodeIsTheWord :=
  fun _ _ h => ⟨encode_of_decode h, wf_of_decode h⟩

/-- Settles O4: a word that meets a row is the word of the row's command with the operands cut out of it. -/
theorem opcodeTableRowsDecode : Obligations.OpcodeTableRowsDecode := by
  intro w
  have hbyte : w.truncate 8 = byteOf w := BitVec.setWidth_eq_extractLsb' (by decide)
  have harg : w.truncate 12 = argOf w := BitVec.setWidth_eq_extractLsb' (by decide)
  rw [hbyte, harg, nvm1_eq_shift_and]
  refine ⟨(decode_of_eq_encode · rfl), (decode_of_eq_encode · rfl),
    fun h => decode_of_eq_encode (eq_append_of_and_mask (n := 8) h) rfl,
    fun h => decode_of_eq_encode ?_ rfl,
    (decode_of_eq_encode · rfl), (decode_of_eq_encode · rfl),
    fun h => decode_of_eq_encode (eq_append_of_and_mask (n := 8) h) rfl,
    (decode_of_eq_encode · rfl),
    fun h => decode_of_eq_encode (eq_append_of_and_mask (n := 8) h) rfl,
    (decode_of_eq_encode · rfl), (decode_of_eq_encode · rfl),
    fun h => decode_of_eq_encode (eq_append_of_and_mask (n := 8) h) rfl,
    decode_of_decByteLast_row,
    (decode_of_eq_encode · rfl),
    fun h => decode_of_eq_encode (eq_append_of_and_mask (n := 12) h) rfl,
    fun h => decode_of_eq_encode (eq_append_of_and_mask (n := 12) h) rfl,
    (decode_of_eq_encode · rfl)⟩
  rw [encode, ofBool_getLsbD]
  exact eq_append_of_and_mask (n := 1) h

/-- Settles O5: each format admits a range of arguments, so its opcodes' words are the listed ones. -/
theorem wellFormedWordsAreTheListedOnes : Obligations.WellFormedWordsAreTheListedOnes := by
  intro w
  obtain ⟨hn, hb, ht, hd, hreserved⟩ := formatOf_iff (opOf w)
  simp only [List.mem_cons, List.not_mem_nil, or_false, ← BitVec.toNat_inj, BitVec.toNat_ofNat, opOf_toNat] at *
  rw [wellFormedWord_iff_fits]
  cases hf : formatOf (opOf w) with
  | n =>
    have hop := hn.1 hf
    rw [fits_n_iff]
    omega
  | b =>
    have hop := hb.1 hf
    rw [fits_b_iff]
    omega
  | t =>
    have hop := ht.1 hf
    rw [fits_t_iff]
    omega
  | d =>
    have hop := hd.1 hf
    rw [fits_d_iff]
    omega
  | reserved =>
    have hop := hreserved.1 hf
    rw [WordFormat.Fits, false_iff]
    omega

/-- Settles O6: an ill-formed word is one that does not fit the format of its opcode, and runs as illFormed. -/
theorem illFormedWordsRaiseIllCmd : Obligations.IllFormedWordsRaiseIllCmd := by
  refine ⟨fun w => ?_, fun w s hw hs => ?_, fun w s hw hs => ?_⟩
  · obtain ⟨hn, hb, ht, hd, hreserved⟩ := formatOf_iff (w.extractLsb' 12 4)
    rw [← Bool.not_eq_true, wellFormedWord_iff_fits, ← hn, ← hb, ← ht, ← hd, ← hreserved, opOf]
    cases hf : formatOf (w.extractLsb' 12 4) with
    | n => simpa [WordFormat.Fits, argOf] using field_ne_zero_iff (w := w) (s := 0) (n := 12)
    | b => simpa [WordFormat.Fits] using field_ne_zero_iff (w := w) (s := 8) (n := 4)
    | t => simpa [WordFormat.Fits] using field_ne_zero_iff (w := w) (s := 1) (n := 11)
    | d => simp [WordFormat.Fits]
    | reserved => simp [WordFormat.Fits]
  · rw [runWord_of_not_wellFormed hw, illFormed_of_ne_fault w hs]
    rfl
  · rw [runWord_of_not_wellFormed hw, illFormed_of_fault w hs]

/-- Settles O1: each sample word is the word of the command that it decodes to. -/
theorem sampleWordsDecode : Obligations.SampleWordsDecode :=
  ⟨decode_encode (i := .nop) rfl, decode_encode (i := .ctOpen 0x61#8) rfl, decode_encode (i := .ctBit true) rfl,
    decode_encode (i := .encSym 0x62#8) rfl, decode_encode (i := .decByte 0x5A#8) rfl,
    decode_encode (i := .decByteLast 7#4 0xD6#8) rfl, decode_encode (i := .decByteLast 4#4 0x10#8) rfl,
    decode_encode (i := .abort) rfl⟩

end Sys2Proof.Machine

/-! PROOFS for the statements of 40_table_commands.md: the four table commands in the phases in which they are legal and
outside them, the records that a table takes, the runs that load them, and the settled statements. -/

namespace Sys2Proof.Machine

/-! Words and phases (R86, R115). -/

/-- The words from lo to hi, all of one opcode, are ill-formed when none of them fits the opcode's format (R86). -/
theorem illCmdOn_of_not_fits {op : BitVec 4} {lo hi : Nat} (hlo : op.toNat * 4096 ≤ lo)
    (hhi : hi < op.toNat * 4096 + 4096)
    (h : ∀ w : CmdWord, lo ≤ w.toNat → w.toNat ≤ hi → ¬ (formatOf op).Fits w) : illCmdOn lo hi := by
  intro w s hw hw'
  have hop : opOf w = op := BitVec.eq_of_toNat_eq (by rw [opOf_toNat]; omega)
  have hill : wellFormedWord w = false := by
    rw [← Bool.not_eq_true, wellFormedWord_iff_fits, hop]
    exact h w hw hw'
  exact runWord_of_not_wellFormed hill s

/-- The phases of the table family (R115). -/
theorem tablePhase_iff_mem {s : State} :
    tablePhase s = true ↔ s.phase ∈ [Phase.idle, .encHdr, .decHdr, .decTbl] := by
  simp [tablePhase_iff]

theorem tablePhase_of_mem_payload {s : State} (h : s.phase ∈ [Phase.encPay, .decPay]) : tablePhase s = false :=
  tablePhase_of_payload (by simpa using h)

/-- CT_BIT's word is its opcode and its bit (R83). -/
theorem encode_ctBit (b : Bool) : encode (.ctBit b) = 0x3000#16 ||| (BitVec.ofBool b).zeroExtend 16 := by
  cases b <;> rfl

/-! The four commands where they are legal (R110 to R113), and out of sequence (R115, R192). -/

theorem exec_ctClear {s : State} (htab : tablePhase s = true) :
    exec .ctClear s = .next { s with ct := [], stg := none } := by
  obtain ⟨-, -, hf⟩ := tablePhase_ne htab
  exact congrArg _ (guarded_of_legal _ _ hf htab)

theorem exec_ctOpen {s : State} (byte : Byte) (htab : tablePhase s = true) (hstg : s.stg = none) :
    exec (.ctOpen byte) s = .next { s with stg := some ⟨byte, []⟩ } := by
  obtain ⟨-, -, hf⟩ := tablePhase_ne htab
  exact congrArg _ (guarded_of_legal _ _ hf (by simp [htab, stgOpen, hstg]))

/-- CT_BIT and CT_COMMIT are legal in a table phase with a record open (R112, R113). -/
theorem legal_of_open {s : State} {r : Staged} (htab : tablePhase s = true) (hr : s.stg = some r) :
    (tablePhase s && stgOpen s) = true := by
  simp [htab, stgOpen, hr]

/-- CT_BIT and CT_COMMIT are not legal in a payload phase, nor with no record open (R112, R113). -/
theorem not_legal_of_closed {s : State} (h : s.phase ∈ [Phase.encPay, .decPay] ∨ s.stg = none) :
    (tablePhase s && stgOpen s) = false := by
  rcases h with h | h
  · simp [tablePhase_of_mem_payload h]
  · simp [stgOpen, h]

/-- In a table phase with a record open, CT_BIT runs its own rule. -/
theorem exec_ctBit_open {s : State} {r : Staged} (b : Bool) (htab : tablePhase s = true) (hr : s.stg = some r) :
    exec (.ctBit b) s = .next (stageBit (encode (.ctBit b)) b s) := by
  obtain ⟨-, -, hf⟩ := tablePhase_ne htab
  exact congrArg _ (guarded_of_legal _ _ hf (legal_of_open htab hr))

/-- In a table phase with a record open, CT_COMMIT runs its own rule. -/
theorem exec_ctCommit_open {s : State} {r : Staged} (htab : tablePhase s = true) (hr : s.stg = some r) :
    exec .ctCommit s = .next (commitStaged (encode .ctCommit) s) := by
  obtain ⟨-, -, hf⟩ := tablePhase_ne htab
  exact congrArg _ (guarded_of_legal _ _ hf (legal_of_open htab hr))

/-- CT_OPEN is out of sequence in a payload phase and while a record is open (R111). -/
theorem exec_ctOpen_of_illegal {s : State} (byte : Byte) (hf : s.phase ≠ .fault)
    (h : s.phase ∈ [Phase.encPay, .decPay] ∨ s.stg ≠ none) :
    exec (.ctOpen byte) s = .next (raiseFault .seq (encode (.ctOpen byte)) s) := by
  refine congrArg _ (guarded_of_illegal _ _ hf ?_)
  rcases h with h | h
  · simp [tablePhase_of_mem_payload h]
  · simp [stgOpen, Option.isSome_iff_ne_none.2 h]

/-! The own rules of CT_BIT and CT_COMMIT (R112, R113), outcome by outcome. -/

theorem stageBit_of_lt {s : State} {r : Staged} (w : CmdWord) (b : Bool) (hr : s.stg = some r)
    (hlt : r.path.length < 255) : stageBit w b s = { s with stg := some ⟨r.sym, r.path ++ [b]⟩ } := by
  simp [stageBit, hr, Config.maxLen, Nat.not_le.2 hlt]

theorem stageBit_of_full {s : State} {r : Staged} (w : CmdWord) (b : Bool) (hr : s.stg = some r)
    (hfull : 255 ≤ r.path.length) : stageBit w b s = raiseFault .pathLen w s := by
  simp [stageBit, hr, Config.maxLen, hfull]

theorem commitStaged_of_empty {s : State} {r : Staged} (w : CmdWord) (hr : s.stg = some r) (hp : r.path = []) :
    commitStaged w s = raiseFault .emptyPath w s := by
  simp [commitStaged, hr, hp]

theorem commitStaged_of_entry {s : State} {r : Staged} (w : CmdWord) (hr : s.stg = some r) (hp : r.path ≠ [])
    (hread : s.ct.read r.sym.toNat ≠ none) : commitStaged w s = raiseFault .dupSym w s := by
  simp [commitStaged, hr, hp, ctRead, Option.isSome_iff_ne_none.2 hread]

theorem commitStaged_of_conflict {s : State} {r : Staged} (w : CmdWord) (hr : s.stg = some r) (hp : r.path ≠ [])
    (hread : s.ct.read r.sym.toNat = none) (hc : ∃ e ∈ s.ct, conflict e.2 r.path = true) :
    commitStaged w s = raiseFault .conflict w s := by
  have hany : s.ct.any (fun e => conflict e.2 r.path) = true := List.any_eq_true.2 hc
  simp [commitStaged, hr, hp, ctRead, hread, hany]

theorem commitStaged_of_new {s : State} {r : Staged} (w : CmdWord) (hr : s.stg = some r) (hp : r.path ≠ [])
    (hread : s.ct.read r.sym.toNat = none) (hc : ∀ e ∈ s.ct, conflict e.2 r.path = false) :
    commitStaged w s = { s with ct := s.ct.write r.sym.toNat r.path, stg := none } := by
  have hany : s.ct.any (fun e => conflict e.2 r.path) = false := List.any_eq_false.2 fun e he => by simp [hc e he]
  simp [commitStaged, hr, hp, ctRead, hread, hany]

/-! Conflicts (R114), seen through what the table reads as. -/

theorem conflict_eq_false_iff {p q : Bits} : conflict p q = false ↔ ¬ p <+: q ∧ ¬ q <+: p := by
  rw [← Bool.not_eq_true, conflict_iff, not_or]

theorem conflict_comm (p q : Bits) : conflict p q = conflict q p :=
  Bool.eq_iff_iff.2 (by rw [conflict_iff, conflict_iff, or_comm])

/-- In a table with rising addresses, what holds of the listed paths holds of the paths that are read. -/
theorem forall_entry_iff_read {m : Memory} (hm : m.Pairwise fun x y => x.1 < y.1) {P : Bits → Prop} :
    (∀ e ∈ m, P e.2) ↔ ∀ a p, m.read a = some p → P p :=
  ⟨fun h _ _ hread => h _ (mem_of_read hread), fun h e he => h e.1 e.2 (read_of_mem hm he)⟩

/-- The same where the addresses are symbols. -/
theorem forall_entry_iff_symbol {m : Memory} (hm : m.wf) {P : Bits → Prop} :
    (∀ e ∈ m, P e.2) ↔ ∀ (sym : Byte) (p : Bits), m.read sym.toNat = some p → P p :=
  ⟨fun h _ _ hread => h _ (mem_of_read hread), fun h _ he => h _ _ (read_symbol hm he)⟩

/-! The records that a table takes (R113, R116). -/

/-- The record loads on top of the table m: its path has 1 to 255 bits, its symbol is new, and its path is in conflict
with no entry's. -/
def RecordLoads (m : Memory) (r : Byte × Bits) : Prop :=
  1 ≤ r.2.length ∧ r.2.length ≤ 255 ∧ m.read r.1.toNat = none ∧
    ∀ a p, m.read a = some p → ¬ p <+: r.2 ∧ ¬ r.2 <+: p

/-- Two records that one table can hold. -/
def Compatible (x y : Byte × Bits) : Prop := x.1 ≠ y.1 ∧ ¬ x.2 <+: y.2 ∧ ¬ y.2 <+: x.2

theorem Compatible.symm {x y : Byte × Bits} (h : Compatible x y) : Compatible y x := by
  obtain ⟨hne, hxy, hyx⟩ := h
  exact ⟨hne.symm, hyx, hxy⟩

theorem loadable_iff {m : Memory} {rs : List (Byte × Bits)} :
    loadable m rs ↔ (∀ r ∈ rs, RecordLoads m r) ∧ rs.Pairwise Compatible := Iff.rfl

/-- The table with a record's entry written. -/
def writeRecord (m : Memory) (r : Byte × Bits) : Memory := m.write r.1.toNat r.2

/-- The table with the entries of the records written, one after the other. -/
def writeRecords (m : Memory) (rs : List (Byte × Bits)) : Memory := rs.foldl writeRecord m

theorem read_writeRecord_eq_none {m : Memory} {r : Byte × Bits} {sym : Byte} :
    (writeRecord m r).read sym.toNat = none ↔ r.1 ≠ sym ∧ m.read sym.toNat = none := by
  simp only [writeRecord, read_write, BitVec.toNat_inj, eq_comm (a := sym)]
  split <;> simp [*]

theorem read_writeRecord_eq_some {m : Memory} {r : Byte × Bits} (hnew : m.read r.1.toNat = none) {a : Nat} {p : Bits} :
    (writeRecord m r).read a = some p ↔ (a = r.1.toNat ∧ p = r.2) ∨ m.read a = some p := by
  rw [writeRecord, read_write]
  split
  next h => simp [h, hnew, eq_comm]
  next h => simp [h]

/-- After a new record is written, the records that load are those that loaded before and are compatible with it. -/
theorem recordLoads_writeRecord {m : Memory} {r x : Byte × Bits} (hnew : m.read r.1.toNat = none) :
    RecordLoads (writeRecord m r) x ↔ RecordLoads m x ∧ Compatible r x := by
  have hpaths : (∀ a p, (writeRecord m r).read a = some p → ¬ p <+: x.2 ∧ ¬ x.2 <+: p) ↔
      (¬ r.2 <+: x.2 ∧ ¬ x.2 <+: r.2) ∧ ∀ a p, m.read a = some p → ¬ p <+: x.2 ∧ ¬ x.2 <+: p := by
    constructor
    · intro h
      exact ⟨h _ _ ((read_writeRecord_eq_some hnew).2 (.inl ⟨rfl, rfl⟩)),
        fun a p hp => h a p ((read_writeRecord_eq_some hnew).2 (.inr hp))⟩
    · rintro ⟨hr, hm⟩ a p hp
      rcases (read_writeRecord_eq_some hnew).1 hp with ⟨-, rfl⟩ | hp
      · exact hr
      · exact hm a p hp
  rw [RecordLoads, RecordLoads, Compatible, read_writeRecord_eq_none, hpaths]
  tauto

/-- Records load one after the other: the first on the table, the others on the table with the first written. -/
theorem loadable_cons {m : Memory} {r : Byte × Bits} {rs : List (Byte × Bits)} :
    loadable m (r :: rs) ↔ RecordLoads m r ∧ loadable (writeRecord m r) rs := by
  rw [loadable_iff, loadable_iff, List.forall_mem_cons, List.pairwise_cons]
  constructor
  · rintro ⟨⟨hr, hrs⟩, hcompat, hpair⟩
    obtain ⟨-, -, hnew, -⟩ := id hr
    exact ⟨hr, fun x hx => (recordLoads_writeRecord hnew).2 ⟨hrs x hx, hcompat x hx⟩, hpair⟩
  · rintro ⟨hr, hrs, hpair⟩
    obtain ⟨-, -, hnew, -⟩ := id hr
    have hsplit := fun x hx => (recordLoads_writeRecord hnew).1 (hrs x hx)
    exact ⟨⟨hr, fun x hx => (hsplit x hx).1⟩, fun x hx => (hsplit x hx).2, hpair⟩

theorem loadable_perm {m : Memory} {rs rs' : List (Byte × Bits)} (h : rs.Perm rs') :
    loadable m rs ↔ loadable m rs' := by
  rw [loadable_iff, loadable_iff, h.pairwise_iff Compatible.symm]
  simp only [h.mem_iff]

/-- Writes of entries at two addresses commute. -/
theorem write_comm {a b : Nat} (hab : a ≠ b) (m : Memory) (p q : Bits) :
    (m.write a p).write b q = (m.write b q).write a p := by
  induction m with
  | nil => simp only [Memory.write]; grind
  | cons e m ih =>
    obtain ⟨k, u⟩ := e
    simp only [Memory.write]
    grind [Memory.write]

/-- Loadable records leave the same table in every order. -/
theorem writeRecords_perm {m : Memory} {rs rs' : List (Byte × Bits)} (h : rs.Perm rs')
    (hpair : rs.Pairwise Compatible) : writeRecords m rs = writeRecords m rs' := by
  refine h.foldl_eq' (fun x hx y hy n => ?_) m
  by_cases hxy : x = y
  · rw [hxy]
  · have : Std.Symm Compatible := ⟨fun _ _ => Compatible.symm⟩
    obtain ⟨hne, -⟩ := hpair.forall hx hy hxy
    exact write_comm (mt BitVec.eq_of_toNat_eq hne) n x.2 y.2

/-! Runs that load records and end outside phase FAULT (30_encoding.md R90, R93). -/

theorem Completes.cons_iff {i : Instr} {is : List Instr} {s t : State} (hi : i ≠ .abort) :
    Completes (i :: is) s t ↔ ∃ m, exec i s = .next m ∧ Completes is m t := by
  constructor
  · intro h
    obtain ⟨m, hm, -, hc⟩ := h.cons
    exact ⟨m, hm, hc⟩
  · rintro ⟨m, hm, ha, hr, hp⟩
    exact ⟨by simp [hi.symm, ha], (execList_cons hm).trans hr, hp⟩

theorem Completes.append_iff {is js : List Instr} {s t : State} :
    Completes (is ++ js) s t ↔ ∃ m, Completes is s m ∧ Completes js m t := by
  refine ⟨Completes.append, ?_⟩
  rintro ⟨m, ⟨ha, hr, -⟩, ha', hr', hp⟩
  exact ⟨by simp [ha, ha'], (execList_append hr).trans hr', hp⟩

/-- The bits of a path run to their end exactly when the staged path has room for them. -/
theorem completes_ctBits_iff {s t : State} {r : Staged} {p : Bits} (htab : tablePhase s = true)
    (hr : s.stg = some r) (hlen : r.path.length ≤ 255) :
    Completes (p.map .ctBit) s t ↔
      r.path.length + p.length ≤ 255 ∧ t = { s with stg := some ⟨r.sym, r.path ++ p⟩ } := by
  induction p generalizing s r with
  | nil =>
    obtain ⟨-, -, hf⟩ := tablePhase_ne htab
    simp [Completes.nil_iff, hf, hlen, ← hr]
  | cons b p ih =>
    rw [List.map_cons, Completes.cons_iff (by simp), exec_ctBit_open b htab hr]
    by_cases hlt : r.path.length < 255
    · rw [stageBit_of_lt _ b hr hlt]
      simp [ih (s := { s with stg := some ⟨r.sym, r.path ++ [b]⟩ }) htab rfl (by simpa using hlt), Nat.add_assoc,
        Nat.add_comm 1]
    · rw [stageBit_of_full _ b hr (Nat.not_lt.1 hlt)]
      have hover : ¬ r.path.length + (b :: p).length ≤ 255 := by simp; omega
      simp only [Host.Outcome.next.injEq, exists_eq_left', hover, false_and, iff_false]
      exact fun hc => hc.phase_ne_fault rfl

/-- CT_COMMIT does not fault exactly when the staged record loads. -/
theorem completes_ctCommit_iff {s t : State} {r : Staged} (htab : tablePhase s = true) (hr : s.stg = some r)
    (hlen : r.path.length ≤ 255) (hrise : s.ct.Pairwise fun x y => x.1 < y.1) :
    Completes [.ctCommit] s t ↔
      RecordLoads s.ct (r.sym, r.path) ∧ t = { s with ct := writeRecord s.ct (r.sym, r.path), stg := none } := by
  rw [Completes.cons_iff (by simp), exec_ctCommit_open htab hr]
  obtain ⟨-, -, hf⟩ := tablePhase_ne htab
  simp only [Host.Outcome.next.injEq, exists_eq_left', Completes.nil_iff]
  have hfree : (∀ e ∈ s.ct, conflict e.2 r.path = false) ↔
      ∀ a p, s.ct.read a = some p → ¬ p <+: r.path ∧ ¬ r.path <+: p := by
    simp only [conflict_eq_false_iff]
    exact forall_entry_iff_read (P := fun p => ¬ p <+: r.path ∧ ¬ r.path <+: p) hrise
  constructor
  · rintro ⟨rfl, hp⟩
    rcases commitStaged_cases (encode .ctCommit) s with
      ⟨hnone, -⟩ | ⟨r', hr', ⟨-, he⟩ | ⟨-, -, he⟩ | ⟨-, -, -, he⟩ | ⟨hne, hnew, hc, he⟩⟩
    · simp [hr] at hnone
    · simp [he] at hp
    · simp [he] at hp
    · simp [he] at hp
    · obtain rfl : r = r' := Option.some.inj (hr.symm.trans hr')
      exact ⟨⟨List.length_pos_iff.2 hne, hlen, hnew, hfree.1 hc⟩, he⟩
  · rintro ⟨⟨h1, -, hnew, hpaths⟩, rfl⟩
    rw [commitStaged_of_new _ hr (List.length_pos_iff.1 h1) hnew (hfree.2 hpaths)]
    exact ⟨rfl, hf⟩

/-- CT_LOAD of a record does not fault exactly when the record loads, and then writes its entry (R90, R113). -/
theorem completes_loadRecord_iff {s t : State} {r : Byte × Bits} (htab : tablePhase s = true) (hstg : s.stg = none)
    (hrise : s.ct.Pairwise fun x y => x.1 < y.1) :
    Completes (loadRecord r) s t ↔ RecordLoads s.ct r ∧ t = { s with ct := writeRecord s.ct r, stg := none } := by
  have hbits {m} :=
    completes_ctBits_iff (s := { s with stg := some ⟨r.1, []⟩ }) (t := m) (p := r.2) htab rfl (by simp)
  have hcommit := completes_ctCommit_iff (s := { s with stg := some ⟨r.1, r.2⟩ }) (t := t) htab rfl
  rw [loadRecord, Completes.cons_iff (by simp), exec_ctOpen r.1 htab hstg]
  simp only [Host.Outcome.next.injEq, exists_eq_left', Completes.append_iff, hbits, and_assoc, exists_and_left,
    exists_eq_left, List.length_nil, Nat.zero_add, List.nil_append]
  constructor
  · rintro ⟨hlen, hc⟩
    exact (hcommit hlen hrise).1 hc
  · intro h
    obtain ⟨⟨-, hlen, -⟩, -⟩ := id h
    exact ⟨hlen, (hcommit hlen hrise).2 h⟩

/-- A list of records loads without a fault exactly when it is loadable, and then its entries are written (R116). -/
theorem completes_loadTable_iff {s t : State} {rs : List (Byte × Bits)} (htab : tablePhase s = true)
    (hstg : s.stg = none) (hrise : s.ct.Pairwise fun x y => x.1 < y.1) :
    Completes (loadTable rs) s t ↔
      loadable s.ct rs ∧ t = { s with ct := writeRecords s.ct rs, stg := none } := by
  induction rs generalizing s with
  | nil =>
    obtain ⟨-, -, hf⟩ := tablePhase_ne htab
    simp [loadTable, Completes.nil_iff, loadable_iff, writeRecords, hf, ← hstg]
  | cons r rs ih =>
    have hsplit : loadTable (r :: rs) = loadRecord r ++ loadTable rs := rfl
    rw [hsplit, Completes.append_iff, loadable_cons, and_assoc]
    simp only [completes_loadRecord_iff htab hstg hrise, and_assoc, exists_and_left, exists_eq_left]
    rw [ih (s := { s with ct := writeRecord s.ct r, stg := none }) htab rfl (write_rising _ _ hrise)]
    rfl

theorem abort_notMem_loadTable (rs : List (Byte × Bits)) : .abort ∉ loadTable rs := by
  simp [loadTable, loadRecord]

theorem execList_answers (is : List Instr) (s : State) : ∃ t, execList is s = .next t := by
  induction is generalizing s with
  | nil => exact ⟨s, rfl⟩
  | cons i is ih =>
    obtain ⟨m, hm⟩ := exec_answers i s
    rw [execList_cons hm]
    exact ih m

theorem execList_tableSound {is : List Instr} {s t : State} (his : ∀ i ∈ is, tableOrNop i = true)
    (hs : TableSound s) (h : execList is s = .next t) : TableSound t := by
  induction is generalizing s with
  | nil => cases h; exact hs
  | cons i is ih =>
    obtain ⟨hi, his⟩ := List.forall_mem_cons.1 his
    obtain ⟨m, hm⟩ := exec_answers i s
    rw [execList_cons hm] at h
    exact ih his (exec_tableOrNop_tableSound hi hs hm) h

/-- A run that loads records stays outside FAULT exactly when they are loadable (R116). -/
theorem execList_loadTable_phase {s t : State} {rs : List (Byte × Bits)} (htab : tablePhase s = true)
    (hstg : s.stg = none) (hrise : s.ct.Pairwise fun x y => x.1 < y.1) (h : execList (loadTable rs) s = .next t) :
    t.phase ≠ .fault ↔ loadable s.ct rs := by
  constructor
  · intro hp
    exact ((completes_loadTable_iff htab hstg hrise).1 ⟨abort_notMem_loadTable rs, h, hp⟩).1
  · intro hl
    obtain ⟨-, hrun, hp⟩ := (completes_loadTable_iff htab hstg hrise).2 ⟨hl, rfl⟩
    rwa [← Host.Outcome.next.inj (h.symm.trans hrun)] at hp

/-! The statements. -/

/-- Settles O29: a run of loads ends outside FAULT exactly when the records are loadable, which their order does not
bear on, and the writes of loadable records commute. -/
theorem loadingOrderDoesNotMatter : Obligations.LoadingOrderDoesNotMatter := by
  refine ⟨fun s t cmds hinv hcmds h => (execList_tableSound hcmds hinv.tableSound h).1, ?_⟩
  intro s rs rs' hinv hphase hstg hperm
  obtain ⟨t, ht⟩ := execList_answers (loadTable rs) s
  obtain ⟨t', ht'⟩ := execList_answers (loadTable rs') s
  obtain ⟨-, ⟨⟨hrise, -⟩, -⟩, -⟩ := hinv
  have htab := tablePhase_iff_mem.2 hphase
  have hloads := execList_loadTable_phase htab hstg hrise ht
  have hloads' := (execList_loadTable_phase htab hstg hrise ht').trans (loadable_perm hperm).symm
  refine ⟨t, t', ht, ht', hloads, not_iff_not.1 (hloads.trans hloads'.symm), fun hp => ?_⟩
  obtain ⟨⟨-, hpair⟩, rfl⟩ :=
    (completes_loadTable_iff htab hstg hrise).1 ⟨abort_notMem_loadTable rs, ht, hp⟩
  have hp' := hloads'.2 (hloads.1 hp)
  obtain ⟨-, rfl⟩ := (completes_loadTable_iff htab hstg hrise).1 ⟨abort_notMem_loadTable rs', ht', hp'⟩
  rw [writeRecords_perm hperm hpair]

/-- Settles O25: each outcome of the three checks in turn, and the write that is left when all of them pass. -/
theorem ctCommitChecksThenWrites : Obligations.CtCommitChecksThenWrites := by
  refine ⟨fun s r hphase hr => ?_, fun s hf h => congrArg _ (guarded_of_illegal _ _ hf (not_legal_of_closed h)),
    fun s hf => exec_of_fault hf (by simp),
    illCmdOn_of_not_fits (op := 0x4#4) (by decide) (by decide) fun w hlo hhi => mt fits_n_iff.1 (by omega)⟩
  rw [exec_ctCommit_open (tablePhase_iff_mem.2 hphase) hr]
  refine ⟨fun hp => congrArg _ (commitStaged_of_empty _ hr hp),
    fun hp hread => congrArg _ (commitStaged_of_entry _ hr hp hread), fun htab hp hread hc => ?_,
    fun htab hp hread hfree => ⟨_, rfl, ?_⟩⟩
  · obtain ⟨sym, p, hsym, hpre⟩ := hc
    exact congrArg _ (commitStaged_of_conflict _ hr hp hread ⟨_, mem_of_read hsym, (conflict_iff p r.path).2 hpre⟩)
  · have hfree := (forall_entry_iff_symbol (P := fun p => ¬ p <+: r.path ∧ ¬ r.path <+: p) htab.1).2 hfree
    rw [commitStaged_of_new _ hr hp hread fun e he => conflict_eq_false_iff.2 (hfree e he)]
    exact ⟨rfl, fun hlen => write_tableOk htab _ _ (List.length_pos_iff.2 hp) hlen hfree,
      fun a => read_write s.ct r.sym.toNat a r.path⟩

/-- Settles O26: two paths that agree on the length of the shorter have that one as a prefix of the other. -/
theorem conflictMeansOneIsAPrefix : Obligations.ConflictMeansOneIsAPrefix :=
  fun p q => ⟨conflict_iff p q, conflict_comm p q⟩

/-- Settles O22: CT_CLEAR where it is legal, in a payload phase, in FAULT, and with an argument bit set. -/
theorem ctClearEmptiesTheTable : Obligations.CtClearEmptiesTheTable := by
  refine ⟨fun s h => exec_ctClear (tablePhase_iff_mem.2 h), read_nil, fun s h => ?_,
    fun s hf => exec_of_fault hf (by simp),
    illCmdOn_of_not_fits (op := 0x1#4) (by decide) (by decide) fun w hlo hhi => mt fits_n_iff.1 (by omega)⟩
  have hf : s.phase ≠ .fault := by rintro hf; simp [hf] at h
  exact exec_tableCommand_of_illegal rfl (by simp) hf (tablePhase_of_mem_payload h)

/-- Settles O23: CT_OPEN where it is legal, out of sequence, in FAULT, and with one of bits 11:8 set. -/
theorem ctOpenStartsARecord : Obligations.CtOpenStartsARecord :=
  ⟨fun s byte h hstg => exec_ctOpen byte (tablePhase_iff_mem.2 h) hstg, fun s byte => exec_ctOpen_of_illegal byte,
    fun s byte hf => exec_of_fault hf (by simp),
    illCmdOn_of_not_fits (op := 0x2#4) (by decide) (by decide) fun w hlo hhi => mt fits_b_iff.1 (by omega)⟩

/-- Settles O24: CT_BIT with room for the bit, at the 256th, out of sequence, in FAULT, and with one of bits 11:1
set. -/
theorem ctBitAppendsOneBit : Obligations.CtBitAppendsOneBit := by
  refine ⟨fun s b r h hr hlt => ?_, fun s b r h hr hfull => ?_, fun s b hf h => ?_,
    fun s b hf => exec_of_fault hf (by simp),
    illCmdOn_of_not_fits (op := 0x3#4) (by decide) (by decide) fun w hlo hhi => mt fits_t_iff.1 (by omega)⟩
  · rw [exec_ctBit_open b (tablePhase_iff_mem.2 h) hr, stageBit_of_lt _ b hr hlt]
  · rw [exec_ctBit_open b (tablePhase_iff_mem.2 h) hr, stageBit_of_full _ b hr hfull.ge, encode_ctBit]
  · rw [← encode_ctBit]
    exact congrArg _ (guarded_of_illegal _ _ hf (not_legal_of_closed h))

end Sys2Proof.Machine

/-! PROOFS for the statements of 41_encoder_commands.md: ENC_HDREND and ENC_SYM where they are legal, the packer's count
of bytes, the bits of a byte stream by their place, the table of an encode session, and the settled statements. -/

namespace Sys2Proof.Machine

/-! ENC_HDREND and ENC_SYM where they are legal (R132, R133). -/

theorem exec_encHdrend_closed {s : State} (h : s.phase = .encHdr) (hstg : s.stg = none) :
    exec .encHdrend s = .next { s with eout := s.eout ++ [0x0A#8], phase := .encPay } :=
  congrArg _ (guarded_of_legal _ _ (by simp [h]) (by simp [h, stgOpen, hstg]))

/-- In ENC_PAY, ENC_SYM runs its own rule. -/
theorem exec_encSym_payload {s : State} (byte : Byte) (h : s.phase = .encPay) :
    exec (.encSym byte) s = .next (packSymbol (encode (.encSym byte)) byte s) :=
  congrArg _ (guarded_of_legal _ _ (by simp [h]) (by simp [h]))

theorem packSymbol_of_entry {s : State} {byte : Byte} {p : Bits} (w : CmdWord) (h : s.ct.read byte.toNat = some p) :
    packSymbol w byte s = writeBits s p := by
  simp [packSymbol, ctRead, h]

theorem packSymbol_of_no_entry {s : State} {byte : Byte} (w : CmdWord) (h : s.ct.read byte.toNat = none) :
    packSymbol w byte s = raiseFault .unenc w s := by
  simp [packSymbol, ctRead, h]

/-! The packer's count (R133, R134). -/

/-- The lengths of the packer's law: whole bytes have left the packer, and the rest of the bits wait. -/
theorem packed_lengths {s t : State} {out : List Byte} {p : Bits}
    (h : streamBits out ++ waitingBits t = waitingBits s ++ p) :
    out.length = (s.pkCnt.toNat + p.length) / 8 ∧ t.pkCnt.toNat = (s.pkCnt.toNat + p.length) % 8 := by
  have hlen := congrArg List.length h
  rw [List.length_append, List.length_append, streamBits_length, waitingBits, waitingBits, topBits_length,
    topBits_length] at hlen
  have hlt := t.pkCnt.isLt
  omega

/-! The bits of a byte stream by their place (R56, R136). -/

theorem topBits_getD {n i : Nat} (b : Byte) (h : i < n) : (topBits n b).getD i false = b.getLsbD (7 - i) := by
  simp [topBits, h]

/-- Bit i of byte j is bit 8j + i of the stream. -/
theorem streamBits_getD (bs : List Byte) (j : Nat) {i : Nat} (h : i < 8) :
    (streamBits bs).getD (8 * j + i) false = (bs.getD j 0#8).getLsbD (7 - i) := by
  induction bs generalizing j with
  | nil => simp [streamBits]
  | cons b bs ih =>
    have hcons : streamBits (b :: bs) = topBits 8 b ++ streamBits bs := rfl
    rw [hcons]
    cases j with
    | zero =>
      rw [List.getD_append _ _ _ _ (by simp [topBits_length]; omega), Nat.mul_zero, Nat.zero_add, topBits_getD b h]
      rfl
    | succ j =>
      rw [List.getD_append_right _ _ _ _ (by simp [topBits_length]; omega), topBits_length,
        show 8 * (j + 1) + i - 8 = 8 * j + i by omega, ih]
      rfl

/-- Zeros after the end read as what stands past the end. -/
theorem getD_append_false (l : Bits) (k n : Nat) :
    (l ++ List.replicate k false).getD n false = l.getD n false := by
  rcases Nat.lt_or_ge n l.length with h | h
  · exact List.getD_append _ _ _ _ h
  · rw [List.getD_append_right _ _ _ _ h, List.getD_eq_default l _ h, List.getD_eq_getElem?_getD,
      List.getElem?_getD_replicate_default_eq]

/-! The table of an encode session is that at ENC_HDREND (R63, R136). -/

/-- There is no ENC_HDREND in a list whose commands other than table commands and NOP are all of another kind. -/
theorem encHdrend_notMem {is : List Instr} {f : Byte → Instr} {xs : List Byte}
    (h : is.filter (fun i => !tableOrNop i) = xs.map f) (hf : ∀ x, f x ≠ .encHdrend) : .encHdrend ∉ is := by
  intro hm
  have hmem : .encHdrend ∈ xs.map f := h ▸ List.mem_filter.2 ⟨hm, rfl⟩
  obtain ⟨x, -, hx⟩ := List.mem_map.1 hmem
  exact hf x hx

/-- A session has one ENC_HDREND, so what follows it is the payload's commands and ENC_END. -/
theorem encodeSession_after_hdrend {hdr syms : List Byte} {c₁ c₂ : List Instr}
    (h : encodeSession hdr syms (c₁ ++ .encHdrend :: c₂)) :
    ∃ body, c₂ = body ++ [.encEnd] ∧ body.filter (fun i => !tableOrNop i) = syms.map Instr.encSym := by
  obtain ⟨-, head, body, heq, hhead, hbody⟩ := encodeSession_split h
  have h₁ : .encHdrend ∉ .encStart :: head := by simp [encHdrend_notMem hhead]
  have h₂ : .encHdrend ∉ body ++ [.encEnd] := by simp [encHdrend_notMem hbody]
  rw [← List.cons_append] at heq
  obtain ⟨-, -, rfl⟩ := (List.append_cons_inj_of_notMem h₁ h₂).1 heq.symm
  exact ⟨body, rfl, hbody⟩

/-- ENC_HDREND that does not fault leads to ENC_PAY (R132). -/
theorem exec_encHdrend_phase {s t : State} (h : exec .encHdrend s = .next t) (ht : t.phase ≠ .fault) :
    t.phase = .encPay := by
  cases exec_effect h with
  | encHdrend => rfl
  | ignored hf => exact absurd hf ht
  | faulted => exact absurd rfl ht

/-- The payload's commands and ENC_END leave the table as it is and end in IDLE (R63, R135). -/
theorem Completes.encodeTail {body : List Instr} {syms : List Byte} {s t : State}
    (h : Completes (body ++ [.encEnd]) s t) (hs : s.phase = .encPay)
    (hbody : body.filter (fun i => !tableOrNop i) = syms.map Instr.encSym) : t.ct = s.ct := by
  obtain ⟨d, hpayload, hc⟩ := h.append
  obtain ⟨e, hflush, -, hc⟩ := hc.cons
  obtain ⟨rfl, -⟩ := Completes.nil_iff.1 hc
  obtain ⟨-, hd⟩ := hpayload.encodePayload hs hbody
  rw [exec_encEnd (by rw [hd, writeBits_phase, hs]), flushPacker_eq] at hflush
  cases hflush
  rw [hd, writeBits_ct]

/-- The table after ENC_HDREND is the table at the end of a completed session. -/
theorem encodeSession_table {s m t : State} {hdr syms : List Byte} {c₁ c₂ : List Instr}
    (hsession : encodeSession hdr syms (c₁ ++ .encHdrend :: c₂))
    (hrun : execList (c₁ ++ .encHdrend :: c₂) s = .next t) (ht : t.phase ≠ .fault)
    (hm : execList (c₁ ++ [.encHdrend]) s = .next m) : t.ct = m.ct := by
  obtain ⟨ha, -⟩ := encodeSession_split hsession
  obtain ⟨body, rfl, hbody⟩ := encodeSession_after_hdrend hsession
  have hc : Completes _ s t := ⟨ha, hrun, ht⟩
  obtain ⟨b, ⟨-, hb, -⟩, hc⟩ := hc.append
  obtain ⟨v, hend, hv, hc⟩ := hc.cons
  have hvm : v = m := by
    rw [execList_append hb, execList_cons hend] at hm
    exact Host.Outcome.next.inj hm
  rw [← hvm]
  exact hc.encodeTail (exec_encHdrend_phase hend hv) hbody

/-! The statements. -/

/-- Settles O36: the file of the session by its bits in their places; what follows ENC_HDREND leaves the table as it
is. -/
theorem encodeSessionWritesTheFile : Obligations.EncodeSessionWritesTheFile := by
  intro s t hdr syms cmds hs hsession hrun ht
  obtain ⟨v, -, -, -, -, -, hflush⟩ := encodeSession_completed hs hsession hrun ht
  obtain ⟨hin, payload, heout, htail, k, hk, hbits⟩ := encodeSession_file hs hsession hrun ht
  have hlen := congrArg List.length hbits
  rw [streamBits_length, List.length_append, List.length_replicate] at hlen
  refine ⟨by rw [hflush, flushPacker_eq], hin, ?_, payload, by simp [heout], by omega, ?_, htail⟩
  · rintro c₁ c₂ m rfl hm
    exact encodeSession_table hsession hrun ht hm
  · intro j i _ hi
    rw [← streamBits_getD payload j hi, hbits, getD_append_false]

/-- Settles O33: the byte is PK_BYTE with the bit set at 7 - PK_CNT, stored or emitted as writeBit's two cases say. -/
theorem writeBitPlacesTheNextBit : Obligations.WriteBitPlacesTheNextBit := by
  intro s b
  have hbits := fun k (hk : k < 8) => setBit_getLsbD s.pkByte (7 - s.pkCnt.toNat) k b hk
  refine ⟨setBit s.pkByte (7 - s.pkCnt.toNat) b, by simp [hbits _ (show 7 - s.pkCnt.toNat < 8 by omega)],
    fun k hk hne => by simp [hbits k hk, hne], fun h => ?_, fun h => ?_, writeBit_low b⟩
  · rcases writeBit_cases s b with ⟨hlt, -⟩ | ⟨-, he⟩
    · simp [h] at hlt
    · rw [he, h]; rfl
  · rcases writeBit_cases s b with ⟨-, he⟩ | ⟨h7, -⟩
    · exact he
    · exact absurd h7 h

/-- Settles O34: the packer's law and its lengths for a symbol with an entry; E_UNENC without one; ENC_SYM out of
sequence, in FAULT, and with one of bits 11:8 set. -/
theorem encSymPacksThePath : Obligations.EncSymPacksThePath := by
  refine ⟨fun s byte p h hread => ?_, fun s byte h hread => ?_,
    fun s byte h hf => congrArg _ (guarded_of_illegal _ _ hf (by simp [h])),
    fun s byte hf => exec_of_fault hf (by simp),
    illCmdOn_of_not_fits (op := 0x8#4) (by decide) (by decide) fun w hlo hhi => mt fits_b_iff.1 (by omega)⟩
  · obtain ⟨out, -, hbits, hframe⟩ := writeBits_spec s p
    refine ⟨writeBits s p, out, ?_, hframe, hbits, packed_lengths hbits⟩
    rw [exec_encSym_payload byte h, packSymbol_of_entry _ hread]
  · rw [exec_encSym_payload byte h, packSymbol_of_no_entry _ hread]
    rfl

/-- Settles O30: ENC_START in IDLE, out of sequence, in FAULT, and with an argument bit set. -/
theorem encStartOpensASession : Obligations.EncStartOpensASession :=
  ⟨fun s => exec_encStart, fun s h hf => congrArg _ (guarded_of_illegal _ _ hf (by simp [h])),
    fun s hf => exec_of_fault hf (by simp),
    illCmdOn_of_not_fits (op := 0x5#4) (by decide) (by decide) fun w hlo hhi => mt fits_n_iff.1 (by omega)⟩

/-- Settles O31: ENC_HDRB in ENC_HDR, out of sequence, in FAULT, and with one of bits 11:8 set. -/
theorem encHdrbCopiesTheByte : Obligations.EncHdrbCopiesTheByte :=
  ⟨fun s => exec_encHdrb, fun s byte h hf => congrArg _ (guarded_of_illegal _ _ hf (by simp [h])),
    fun s byte hf => exec_of_fault hf (by simp),
    illCmdOn_of_not_fits (op := 0x6#4) (by decide) (by decide) fun w hlo hhi => mt fits_b_iff.1 (by omega)⟩

/-- Settles O32: ENC_HDREND in ENC_HDR with no record open, out of sequence in each of the two ways, in FAULT, and with
an argument bit set. -/
theorem encHdrendWritesTheNewline : Obligations.EncHdrendWritesTheNewline := by
  refine ⟨fun s => exec_encHdrend_closed, fun s hf h => congrArg _ (guarded_of_illegal _ _ hf ?_),
    fun s hf => exec_of_fault hf (by simp),
    illCmdOn_of_not_fits (op := 0x7#4) (by decide) (by decide) fun w hlo hhi => mt fits_n_iff.1 (by omega)⟩
  rcases h with h | h
  · simp [h]
  · simp [stgOpen, Option.isSome_iff_ne_none.2 h]

/-- Settles O35: ENC_END in ENC_PAY, out of sequence, in FAULT, and with an argument bit set. -/
theorem encEndFlushesThePacker : Obligations.EncEndFlushesThePacker :=
  ⟨fun s h => (exec_encEnd h).trans (congrArg _ (flushPacker_eq s)),
    fun s h hf => congrArg _ (guarded_of_illegal _ _ hf (by simp [h])), fun s hf => exec_of_fault hf (by simp),
    illCmdOn_of_not_fits (op := 0x9#4) (by decide) (by decide) fun w hlo hhi => mt fits_n_iff.1 (by omega)⟩

end Sys2Proof.Machine

/-! PROOFS for the statements of 42_decoder_commands.md: the unbounded string and the tree walk beside the accumulator,
what the matcher makes of a list of bits, the decoder commands where they are legal, the frame of DEC_BYTE, and the
settled statements. -/

namespace Sys2Proof.Machine

/-! The matcher after the accumulator has overflowed (R155, R159). -/

theorem feed_of_overflowed {s : State} (b : Bool) (h : s.accOvf = true) : feed s b = s := by
  simp [feed, h]

theorem feedBits_of_overflowed {s : State} (bs : Bits) (h : s.accOvf = true) : feedBits s bs = s := by
  induction bs with
  | nil => rfl
  | cons b bs ih => exact (congrArg (feedBits · bs) (feed_of_overflowed b h)).trans ih

theorem feed_of_full {s : State} (b : Bool) (hovf : s.accOvf = false) (hfull : 255 ≤ s.acc.length) :
    feed s b = { s with accOvf := true } := by
  simp [feed, hovf, Config.maxLen, hfull]

/-! The source's unbounded string (R159). -/

theorem unboundedDecode_cons_of_match {m : Memory} {acc : Bits} {b : Bool} {a : Nat} (bs : Bits)
    (h : m.find (acc ++ [b]) = [a]) :
    unboundedDecode m acc (b :: bs) =
      (BitVec.ofNat 8 a :: (unboundedDecode m [] bs).1, (unboundedDecode m [] bs).2) := by
  rw [unboundedDecode, h]

theorem unboundedDecode_cons_of_no_match {m : Memory} {acc : Bits} {b : Bool} (bs : Bits)
    (h : ∀ a, m.find (acc ++ [b]) ≠ [a]) :
    unboundedDecode m acc (b :: bs) = unboundedDecode m (acc ++ [b]) bs := by
  rw [unboundedDecode]
  split
  · exact absurd ‹_› (h _)
  · rfl

/-- No path of the table goes on from these bits. -/
def DeadEnd (m : Memory) (acc : Bits) : Prop := ∀ e ∈ m, acc <+: e.2 → e.2.length ≤ acc.length

/-- No path has more than 255 bits (R26). -/
theorem deadEnd_of_full {m : Memory} (hwf : m.wf) {acc : Bits} (h : 255 ≤ acc.length) : DeadEnd m acc :=
  fun e he _ => (hwf.2 e he).2.2.trans h

theorem DeadEnd.not_prefix {m : Memory} {acc : Bits} {b : Bool} (h : DeadEnd m acc) {e : Nat × Bits} (he : e ∈ m) :
    ¬ acc ++ [b] <+: e.2 := by
  intro hpre
  have hle := h e he ((List.prefix_append acc [b]).trans hpre)
  have hlt := hpre.length_le
  simp at hlt
  omega

/-- From a dead end the string only grows. -/
theorem unboundedDecode_of_deadEnd {m : Memory} {acc : Bits} (bs : Bits) (h : DeadEnd m acc) :
    unboundedDecode m acc bs = ([], acc ++ bs) := by
  induction bs generalizing acc with
  | nil => simp [unboundedDecode]
  | cons b bs ih =>
    have hfind : ∀ a, m.find (acc ++ [b]) ≠ [a] := fun a hf =>
      h.not_prefix (mem_find.1 (by rw [hf]; exact List.mem_singleton_self a)) List.prefix_rfl
    rw [unboundedDecode_cons_of_no_match bs hfind, ih fun e he hpre => absurd hpre (h.not_prefix he)]
    simp

/-- The accumulator of a state beside the unbounded string: empty at the same time, overflowed exactly when the string
is longer than 255 bits, and else the string itself (R159). -/
def HoldsString (s : State) (str : Bits) : Prop :=
  (s.acc = [] ↔ str = []) ∧ (s.accOvf = true ↔ 255 < str.length) ∧ (s.accOvf = false → s.acc = str)

theorem holdsString_acc {s : State} (hovf : s.accOvf = false) (hlen : s.acc.length ≤ 255) : HoldsString s s.acc :=
  ⟨Iff.rfl, by simp [hovf, hlen], fun _ => rfl⟩

/-- Feeding bits emits what the unbounded string emits, and keeps the accumulator beside it (R159). -/
theorem feedBits_refines_unboundedDecode {s : State} (bs : Bits) (htab : tableOk s.ct) (hovf : s.accOvf = false)
    (hlen : s.acc.length ≤ 255) :
    (feedBits s bs).dsym = s.dsym ++ (unboundedDecode s.ct s.acc bs).1 ∧
      HoldsString (feedBits s bs) (unboundedDecode s.ct s.acc bs).2 := by
  induction bs generalizing s with
  | nil => exact ⟨(List.append_nil _).symm, holdsString_acc hovf hlen⟩
  | cons b bs ih =>
    have hrun : feedBits s (b :: bs) = feedBits (feed s b) bs := rfl
    rw [hrun]
    rcases feed_cases s b with ⟨h, -⟩ | ⟨-, hfull, he⟩ | ⟨-, -, a, hfind, he⟩ | ⟨-, hlt, hfind, he⟩
    · simp [hovf] at h
    · have hne : s.acc ≠ [] := by rintro hnil; simp [hnil] at hfull
      rw [he, feedBits_of_overflowed bs rfl, unboundedDecode_of_deadEnd _ (deadEnd_of_full htab.1 hfull)]
      exact ⟨(List.append_nil _).symm, by simp [hne], by simp; omega, by simp⟩
    · obtain ⟨hdsym, hacc⟩ := ih (s := feed s b) (by rwa [feed_ct]) (by rw [he]; exact hovf) (by simp [he])
      rw [unboundedDecode_cons_of_match bs hfind, hdsym]
      rw [he] at hacc ⊢
      exact ⟨List.append_assoc _ [_] _, hacc⟩
    · have := ih (s := feed s b) (by rwa [feed_ct]) (by rw [he]; exact hovf) (by simp [he]; omega)
      rw [unboundedDecode_cons_of_no_match bs hfind]
      rwa [he] at this ⊢

/-! The walk of the tree of paths (R160). -/

/-- The leaf that the walk finds is the one that the matcher finds. -/
theorem find_of_leaf {m : Memory} (htab : tableOk m) {p : Bits} {e : Nat × Bits}
    (h : m.find? (fun e => e.2 == p) = some e) : m.find p = [e.1] := by
  have hp : e.2 = p := by simpa using List.find?_some h
  have hmem : (e.1, p) ∈ m := hp ▸ List.mem_of_find?_eq_some h
  rcases find_cases htab p with ⟨-, hno⟩ | ⟨a, ha, -⟩
  · exact absurd hmem (hno e.1)
  · have heq : e.1 = a := by simpa [ha] using mem_find.2 hmem
    rw [ha, heq]

theorem find_of_no_leaf {m : Memory} {p : Bits} (h : m.find? (fun e => e.2 == p) = none) : m.find p = [] :=
  List.eq_nil_iff_forall_not_mem.2 fun _ ha => List.find?_eq_none.1 h _ (mem_find.1 ha) (beq_self_eq_true p)

theorem treeWalk_dead (m : Memory) (bs : Bits) : treeWalk m none bs = ([], none) := by
  cases bs <;> rfl

/-- The walk from a node emits what the unbounded string emits from the node's bits, and is back at the root exactly
when the string is empty. -/
theorem treeWalk_eq_unboundedDecode {m : Memory} (htab : tableOk m) (p bs : Bits) :
    (treeWalk m (some p) bs).1 = (unboundedDecode m p bs).1 ∧
      ((treeWalk m (some p) bs).2 = some [] ↔ (unboundedDecode m p bs).2 = []) := by
  induction bs generalizing p with
  | nil => simp [treeWalk, unboundedDecode]
  | cons b bs ih =>
    rw [treeWalk]
    split
    · rename_i e hleaf
      obtain ⟨hsyms, hroot⟩ := ih []
      rw [unboundedDecode_cons_of_match bs (find_of_leaf htab hleaf)]
      exact ⟨congrArg _ hsyms, hroot⟩
    · rename_i hleaf
      rw [unboundedDecode_cons_of_no_match bs (by simp [find_of_no_leaf hleaf])]
      split
      · exact ih (p ++ [b])
      · rename_i hchild
        have hdead : DeadEnd m (p ++ [b]) := fun e he hpre =>
          absurd (List.any_eq_true.2 ⟨e, he, List.isPrefixOf_iff_prefix.2 hpre⟩) hchild
        simp [treeWalk_dead, unboundedDecode_of_deadEnd bs hdead]

/-! What the matcher makes of a list of bits (R161). -/

/-- The string and the bits to come are the paths of the emitted symbols and then what is left over. -/
theorem unboundedDecode_bits {m : Memory} (htab : tableOk m) (acc bs : Bits) :
    (∀ x ∈ (unboundedDecode m acc bs).1, m.read x.toNat ≠ none) ∧
      acc ++ bs = codeBits m (unboundedDecode m acc bs).1 ++ (unboundedDecode m acc bs).2 := by
  induction bs generalizing acc with
  | nil => simp [unboundedDecode, codeBits]
  | cons b bs ih =>
    rcases find_cases htab (acc ++ [b]) with ⟨hfind, -⟩ | ⟨a, hfind, hmem⟩
    · rw [unboundedDecode_cons_of_no_match bs (by simp [hfind])]
      obtain ⟨hin, hbits⟩ := ih (acc ++ [b])
      exact ⟨hin, by rw [← hbits]; simp⟩
    · obtain ⟨hin, hbits⟩ := ih []
      have hread := read_symbol htab.1 hmem
      rw [unboundedDecode_cons_of_match bs hfind]
      refine ⟨List.forall_mem_cons.2 ⟨by rw [hread]; simp, hin⟩, ?_⟩
      rw [codeBits_cons _ hread, List.append_assoc, ← hbits]
      simp

/-- Fed bits are the paths of the emitted symbols and then bits that are none exactly when the accumulator is empty. -/
theorem feedBits_bits {s : State} (bs : Bits) (htab : tableOk s.ct) (hovf : s.accOvf = false) (hacc : s.acc = []) :
    ∃ (syms : List Byte) (rest : Bits), (feedBits s bs).dsym = s.dsym ++ syms ∧
      (∀ x ∈ syms, s.ct.read x.toNat ≠ none) ∧ bs = codeBits s.ct syms ++ rest ∧
      ((feedBits s bs).acc = [] ↔ rest = []) := by
  obtain ⟨hdsym, hempty, -⟩ := feedBits_refines_unboundedDecode bs htab hovf (by simp [hacc])
  rw [hacc] at hdsym hempty
  obtain ⟨hin, hbits⟩ := unboundedDecode_bits htab [] bs
  exact ⟨_, _, hdsym, hin, hbits, hempty⟩

theorem codeBits_append (m : Memory) (xs ys : List Byte) : codeBits m (xs ++ ys) = codeBits m xs ++ codeBits m ys :=
  List.flatMap_append

/-- The emitted symbols go on from those of every list whose paths begin the fed bits. -/
theorem feedBits_codeBits_append {s : State} (htab : tableOk s.ct) (hovf : s.accOvf = false) (hacc : s.acc = [])
    {syms : List Byte} (hin : ∀ x ∈ syms, s.ct.read x.toNat ≠ none) (rest : Bits) :
    ∃ out, (feedBits s (codeBits s.ct syms ++ rest)).dsym = s.dsym ++ syms ++ out := by
  rw [feedBits_append, feedBits_codeBits htab hovf hacc hin]
  obtain ⟨out, hdsym, -⟩ := feedBits_frame { s with dsym := s.dsym ++ syms } rest
  exact ⟨out, hdsym⟩

/-- The verdict on the bits B fed from s and ended, t the state then: the symbols whose paths they are and IDLE, or
E_PREMEND after the longest list of symbols whose paths begin them (R161). -/
def DecodeVerdict (s : State) (B : Bits) (t : State) : Prop :=
  (∀ syms : List Byte, (∀ x ∈ syms, s.ct.read x.toNat ≠ none) → B = codeBits s.ct syms →
    t.phase = .idle ∧ t.dsym = s.dsym ++ syms) ∧
  ((∀ syms : List Byte, (∀ x ∈ syms, s.ct.read x.toNat ≠ none) → B ≠ codeBits s.ct syms) →
    t.phase = .fault ∧ t.fcode = .premEnd ∧
      ∃ (syms : List Byte) (rest : Bits), (∀ x ∈ syms, s.ct.read x.toNat ≠ none) ∧
        B = codeBits s.ct syms ++ rest ∧ t.dsym = s.dsym ++ syms ∧
        ∀ (syms' : List Byte) (rest' : Bits), (∀ x ∈ syms', s.ct.read x.toNat ≠ none) →
          B = codeBits s.ct syms' ++ rest' → (codeBits s.ct syms').length ≤ (codeBits s.ct syms).length)

theorem endOfBits_of_empty {s : State} (w : CmdWord) (h : s.acc = []) : endOfBits w s = { s with phase := .idle } := by
  simp [endOfBits, h]

theorem endOfBits_of_bits {s : State} (w : CmdWord) (h : s.acc ≠ []) : endOfBits w s = raiseFault .premEnd w s := by
  simp [endOfBits, h]

theorem decodeVerdict_endOfBits {s : State} (w : CmdWord) (B : Bits) (htab : tableOk s.ct) (hovf : s.accOvf = false)
    (hacc : s.acc = []) : DecodeVerdict s B (endOfBits w (feedBits s B)) := by
  constructor
  · rintro syms hin rfl
    have hend := endOfBits_of_empty (s := { s with dsym := s.dsym ++ syms }) w hacc
    rw [feedBits_codeBits htab hovf hacc hin, hend]
    exact ⟨rfl, rfl⟩
  · intro hnone
    obtain ⟨syms, rest, hdsym, hin, hbits, hempty⟩ := feedBits_bits B htab hovf hacc
    have hrest : rest ≠ [] := fun hnil => hnone syms hin (by rw [hbits, hnil, List.append_nil])
    rw [endOfBits_of_bits w (mt hempty.1 hrest)]
    refine ⟨rfl, rfl, syms, rest, hin, hbits, hdsym, fun syms' rest' hin' hbits' => ?_⟩
    obtain ⟨out, hout⟩ := feedBits_codeBits_append htab hovf hacc hin' rest'
    rw [← hbits', hdsym, List.append_assoc] at hout
    rw [List.append_cancel_left hout, codeBits_append, List.length_append]
    exact Nat.le_add_right _ _

/-! The payload of a decode session (R151, R161). -/

/-- Full payload bytes in DEC_PAY feed all their bits in order. -/
theorem execList_payloadBytes {s : State} (ys : List Byte) (h : s.phase = .decPay) :
    execList (ys.map Instr.decByte) s = .next (feedBits s (streamBits ys)) := by
  induction ys generalizing s with
  | nil => rfl
  | cons y ys ih =>
    have hbits : streamBits (y :: ys) = topBits 8 y ++ streamBits ys := rfl
    rw [List.map_cons, execList_cons (exec_decByte_payload y (.inl h)), withPhase_self h,
      ih ((feedBits_phase _ _).trans h), hbits, feedBits_append]

/-- Full payload bytes and DEC_END feed all their bits in order, in DEC_PAY where there is a byte, and then the bits
end. -/
theorem execList_payload_decEnd {s : State} (ys : List Byte) (h : AtPayload s) :
    ∃ p, execList (ys.map Instr.decByte ++ [.decEnd]) s =
      .next (endOfBits (encode .decEnd) (feedBits { s with phase := p } (streamBits ys))) := by
  cases ys with
  | nil => exact ⟨s.phase, execList_cons (exec_decEnd_payload h)⟩
  | cons y ys =>
    have hbits : streamBits (y :: ys) = topBits 8 y ++ streamBits ys := rfl
    have hpay : (feedBits { s with phase := .decPay } (topBits 8 y)).phase = .decPay := feedBits_phase _ _
    refine ⟨.decPay, ?_⟩
    rw [List.map_cons, List.cons_append, execList_cons (exec_decByte_payload y h),
      execList_append (execList_payloadBytes ys hpay), hbits, feedBits_append]
    exact execList_cons (exec_decEnd_payload (.inl ((feedBits_phase _ _).trans hpay)))

/-- The two ways to end a payload of full bytes ys, and the bits B that have been presented then (R161). -/
theorem execList_payload_ended {s : State} {ys : List Byte} {B : Bits} {last : Instr} (h : AtPayload s)
    (hlast : (last = .decEnd ∧ B = streamBits ys) ∨
      ∃ (n : BitVec 4) (y : Byte), 1 ≤ n.toNat ∧ n.toNat ≤ 8 ∧ last = .decByteLast n y ∧
        B = streamBits ys ++ topBits n.toNat y) :
    ∃ p, execList (ys.map Instr.decByte ++ [last]) s =
      .next (endOfBits (encode last) (feedBits { s with phase := p } B)) := by
  rcases hlast with ⟨rfl, rfl⟩ | ⟨n, y, -, hn, rfl, rfl⟩
  · exact execList_payload_decEnd ys h
  · exact ⟨.decPay, execList_payload ys y h hn⟩

/-! The matcher on one bit, with the table read through CTRead (R155). -/

theorem feed_of_match {s : State} {b : Bool} {sym : Byte} (htab : tableOk s.ct) (hovf : s.accOvf = false)
    (hlt : s.acc.length < 255) (hread : s.ct.read sym.toNat = some (s.acc ++ [b])) :
    feed s b = { s with acc := [], dsym := s.dsym ++ [sym] } := by
  rcases feed_cases s b with ⟨h, -⟩ | ⟨-, hfull, -⟩ | ⟨-, -, a, hfind, he⟩ | ⟨-, -, hfind, -⟩
  · simp [hovf] at h
  · omega
  · have ha : sym.toNat = a := by simpa [hfind] using mem_find.2 (mem_of_read hread)
    rw [he, ← ha, BitVec.ofNat_toNat, BitVec.setWidth_eq]
  · rcases find_cases htab (s.acc ++ [b]) with ⟨-, hno⟩ | ⟨a, ha, -⟩
    · exact absurd (mem_of_read hread) (hno _)
    · exact absurd ha (hfind a)

theorem feed_of_no_match {s : State} {b : Bool} (htab : tableOk s.ct) (hovf : s.accOvf = false)
    (hlt : s.acc.length < 255) (hno : ∀ sym : Byte, s.ct.read sym.toNat ≠ some (s.acc ++ [b])) :
    feed s b = { s with acc := s.acc ++ [b] } := by
  rcases feed_cases s b with ⟨h, -⟩ | ⟨-, hfull, -⟩ | ⟨-, -, a, hfind, -⟩ | ⟨-, -, -, he⟩
  · simp [hovf] at h
  · omega
  · have hmem : (a, s.acc ++ [b]) ∈ s.ct := mem_find.1 (by simp [hfind])
    exact absurd (read_symbol htab.1 hmem) (hno _)
  · exact he

/-! The decoder commands by phase (R150 to R154, R158). -/

theorem exec_decByteLast_header {s : State} (n : BitVec 4) (data : Byte) (h : s.phase = .decHdr) :
    exec (.decByteLast n data) s = .next (headerByte (encode (.decByteLast n data)) data true s) := by
  refine congrArg _ ((guarded_of_legal _ _ (by simp [h]) (by simp [decLegal, h])).trans ?_)
  simp [h]

theorem exec_decEnd_header {s : State} (h : s.phase = .decHdr) :
    exec .decEnd s = .next (raiseFault .hdrEnd (encode .decEnd) s) := by
  refine congrArg _ ((guarded_of_legal _ _ (by simp [h]) (by simp [decLegal, h])).trans ?_)
  simp [h]

theorem headerByte_newline (w : CmdWord) (last : Bool) (s : State) :
    headerByte w 0x0A#8 last s = { s with phase := if last then .idle else .decTbl } := by
  simp [headerByte, Config.nl]

theorem headerByte_text {data : Byte} (w : CmdWord) (s : State) (h : data ≠ 0x0A#8) :
    headerByte w data false s = { s with dhdr := s.dhdr ++ [data] } := by
  simp [headerByte, Config.nl, h, emitDhdr]

theorem headerByte_text_last {data : Byte} (w : CmdWord) (s : State) (h : data ≠ 0x0A#8) :
    headerByte w data true s = raiseFault .hdrEnd w s := by
  simp [headerByte, Config.nl, h]

/-- Where DEC_BYTE and DEC_END are out of sequence (R151, R158). -/
def DecOutOfSequence (s : State) : Prop :=
  s.phase ∈ [.idle, .encHdr, .encPay] ∨ (s.phase = .decTbl ∧ s.stg ≠ none)

theorem DecOutOfSequence.ne_fault {s : State} (h : DecOutOfSequence s) : s.phase ≠ .fault := by
  rintro hf
  simp [DecOutOfSequence, hf] at h

theorem DecOutOfSequence.not_decLegal {s : State} (h : DecOutOfSequence s) : decLegal s = false := by
  rcases h with h | ⟨hp, hstg⟩
  · simp only [List.mem_cons, List.not_mem_nil, or_false] at h
    rcases h with h | h | h <;> simp [decLegal, h]
  · simp [decLegal, hp, stgOpen, Option.isSome_iff_ne_none.2 hstg]

theorem DecOutOfSequence.guarded {s : State} (h : DecOutOfSequence s) (w : CmdWord) (body : State → State) :
    guarded w (decLegal s) body s = raiseFault .seq w s :=
  guarded_of_illegal w body h.ne_fault h.not_decLegal

/-! The frame of DEC_BYTE (R151, R152, R202). -/

theorem decoderFrame_refl (n : Nat) (s : State) : decoderFrame n s s :=
  ⟨rfl, rfl, rfl, rfl, rfl, rfl, rfl, fun _ => ⟨rfl, rfl⟩, [], [], by simp⟩

/-- A fault keeps to the frame, as it writes the fault record only (R202). -/
theorem raiseFault_decoderFrame {n : Nat} {s t : State} (f : FCode) (w : CmdWord) (h : decoderFrame n s t) :
    decoderFrame n s (raiseFault f w t) := by
  obtain ⟨htail, hct, hstg, hbyte, hcnt, heout, hin, -, htraces⟩ := h
  exact ⟨htail, hct, hstg, hbyte, hcnt, heout, hin, fun hp => absurd rfl hp, htraces⟩

/-- A state outside FAULT keeps to the frame in every phase. -/
theorem withPhase_decoderFrame {n : Nat} {s t : State} (p : Phase) (ht : t.phase ≠ .fault) (h : decoderFrame n s t) :
    decoderFrame n s { t with phase := p } := by
  obtain ⟨htail, hct, hstg, hbyte, hcnt, heout, hin, hfault, htraces⟩ := h
  exact ⟨htail, hct, hstg, hbyte, hcnt, heout, hin, fun _ => hfault ht, htraces⟩

theorem guarded_decoderFrame {n : Nat} {s : State} {w : CmdWord} {legal : Bool} {body : State → State}
    (h : s.phase ≠ .fault → decoderFrame n s (body s)) : decoderFrame n s (guarded w legal body s) := by
  rcases guarded_cases w legal body s with ⟨-, he⟩ | ⟨hf, -, he⟩ | ⟨-, -, he⟩ <;> rw [he]
  · exact decoderFrame_refl n s
  · exact h hf
  · exact raiseFault_decoderFrame _ _ (decoderFrame_refl n s)

/-- A header byte adds at most itself to DHDR (R152). -/
theorem headerByte_decoderFrame {s : State} (n : Nat) (w : CmdWord) (data : Byte) (last : Bool)
    (hs : s.phase ≠ .fault) : decoderFrame n s (headerByte w data last s) := by
  rcases headerByte_cases w data last s with ⟨-, he⟩ | ⟨-, -, he⟩ | ⟨-, -, he⟩ <;> rw [he]
  · exact withPhase_decoderFrame _ hs (decoderFrame_refl n s)
  · exact raiseFault_decoderFrame _ _ (decoderFrame_refl n s)
  · exact ⟨rfl, rfl, rfl, rfl, rfl, rfl, rfl, fun _ => ⟨rfl, rfl⟩, [data], [], by simp⟩

/-- A payload byte adds at most one symbol a bit to DSYM (R151). -/
theorem payloadByte_decoderFrame (n : Nat) (data : Byte) (s : State) :
    decoderFrame n s (payloadByte data n s) := by
  obtain ⟨out, hlen, he⟩ := payloadByte_frame data n s
  rw [he]
  exact ⟨rfl, rfl, rfl, rfl, rfl, rfl, rfl, fun _ => ⟨rfl, rfl⟩, [], out, (List.append_nil _).symm, rfl, by simp,
    hlen.trans (Nat.min_le_left n 8), .inl rfl⟩

@[simp] theorem payloadByte_phase (data : Byte) (n : Nat) (s : State) : (payloadByte data n s).phase = .decPay :=
  feedBits_phase _ _

/-- The end of bits completes the session or faults, and writes no trace (R157). -/
theorem endOfBits_decoderFrame {n : Nat} {s t : State} (w : CmdWord) (ht : t.phase ≠ .fault)
    (h : decoderFrame n s t) : decoderFrame n s (endOfBits w t) := by
  rcases endOfBits_cases w t with ⟨-, he⟩ | ⟨-, he⟩ <;> rw [he]
  · exact raiseFault_decoderFrame _ _ h
  · exact withPhase_decoderFrame _ ht h

/-! Padding (R151, R154). -/

/-- Bytes with the same meaningful bits are unpacked to the same bits. -/
theorem payloadBits_congr {n : Nat} {d d' : Byte} (h : topBits n d = topBits n d') :
    payloadBits d n = payloadBits d' n := by
  have htake : ∀ b : Byte, payloadBits b n = (topBits n b).take 8 := fun b => by
    rw [payloadBits_eq, topBits, topBits, ← List.map_take, List.take_range, Nat.min_comm]
  rw [htake, htake, h]

/-- t and t' differ in FINFO at most. -/
def SameButFinfo (t t' : State) : Prop := t' = { t with finfo := t'.finfo }

/-- The word of a guarded command shows in FINFO only, when it does in the command's own rule. -/
theorem guarded_sameButFinfo {w w' : CmdWord} {legal : Bool} {body body' : State → State} {s : State}
    (h : SameButFinfo (body s) (body' s)) : SameButFinfo (guarded w legal body s) (guarded w' legal body' s) := by
  by_cases hf : s.phase = .fault
  · rw [guarded_of_fault _ _ _ hf, guarded_of_fault _ _ _ hf]
    rfl
  · cases legal with
    | true => rwa [guarded_of_legal _ _ hf rfl, guarded_of_legal _ _ hf rfl]
    | false =>
      rw [guarded_of_illegal _ _ hf rfl, guarded_of_illegal _ _ hf rfl]
      rfl

theorem endOfBits_sameButFinfo (w w' : CmdWord) (s : State) : SameButFinfo (endOfBits w s) (endOfBits w' s) := by
  by_cases h : s.acc = []
  · rw [endOfBits_of_empty w h, endOfBits_of_empty w' h]
    rfl
  · rw [endOfBits_of_bits w h, endOfBits_of_bits w' h]
    rfl

/-! The statements. -/

/-- Settles O44: the accumulator holds the unbounded string after every list of bits, since past 255 bits no path is
left that the string could equal. -/
theorem accumulatorRefinesTheUnboundedString : Obligations.AccumulatorRefinesTheUnboundedString := by
  refine ⟨fun s bs htab hovf hlen => feedBits_refines_unboundedDecode bs htab hovf hlen, fun s bs w hovf hfull => ?_⟩
  have hne : s.acc ≠ [] := by rintro hnil; simp [hnil] at hfull
  exact ⟨feedBits_of_overflowed bs hovf, endOfBits_of_bits w hne⟩

/-- Settles O45: both the walk and the accumulator do what the unbounded string does. -/
theorem treeWalkIsEquivalent : Obligations.TreeWalkIsEquivalent := by
  intro s bs htab hovf hacc
  obtain ⟨hdsym, hempty, -⟩ := feedBits_refines_unboundedDecode bs htab hovf (by simp [hacc])
  obtain ⟨hsyms, hroot⟩ := treeWalk_eq_unboundedDecode htab [] bs
  rw [hacc] at hdsym hempty
  exact ⟨by rw [hdsym, hsyms], hempty.trans hroot.symm⟩

/-- Settles O46: the session starts with the accumulator empty, the payload feeds its bits, and the end of them gives
the verdict. -/
theorem decodeSessionEmitsTheSymbols : Obligations.DecodeSessionEmitsTheSymbols := by
  intro s u hdr tbl hinv hs hnl htbl hrun hu hstg
  obtain ⟨htab, hacc, hovf, hdhdr, hdsym⟩ := decodeSession_start hinv hs hnl htbl hrun (by simp [hu])
  refine ⟨hdhdr, hdsym, fun ys B last hlast => ?_⟩
  obtain ⟨p, hpayload⟩ := execList_payload_ended (.inr ⟨hu, hstg⟩) hlast
  rw [← hdsym]
  exact ⟨_, hpayload, decodeVerdict_endOfBits (s := { u with phase := p }) _ B htab hovf hacc⟩

/-- Settles O39: DEC_BYTE by phase; the top bits of the byte are data[7] down to data[8 - nvalid]; with one of the
words that have last = 0 and nvm1 other than 7. -/
theorem decByteFeedsThePayload : Obligations.DecByteFeedsThePayload := by
  refine ⟨fun s n d h => ⟨exec_decByte_header d h, exec_decByteLast_header n d h⟩,
    fun s d h => exec_decByte_payload d h, fun s u n d h _ hn hu => ?_,
    fun s n d h => ⟨congrArg _ (DecOutOfSequence.guarded h _ _), congrArg _ (DecOutOfSequence.guarded h _ _)⟩,
    fun s n d hf => ⟨exec_of_fault hf (by simp), exec_of_fault hf (by simp)⟩,
    illCmdOn_of_not_fits (op := 0xB#4) (by decide) (by decide) fun w hlo hhi => mt fits_d_iff.1 (by omega)⟩
  have hfed : feedBits { s with phase := .decPay } (topBits n.toNat d) = u := hu.symm
  rw [exec_decByteLast_payload d h hn, hfed]
  exact ⟨fun hnil => congrArg _ (endOfBits_of_empty _ hnil), fun hne => congrArg _ (endOfBits_of_bits _ hne)⟩

/-- Settles O40: each rule that DEC_BYTE can run keeps to the frame. -/
theorem decByteFrame : Obligations.DecByteFrame := by
  constructor
  · intro s t d h
    cases h
    refine guarded_decoderFrame fun hf => ?_
    split
    · exact headerByte_decoderFrame _ _ d _ hf
    · exact payloadByte_decoderFrame 8 d s
  · intro s t n d h
    cases h
    refine guarded_decoderFrame fun hf => ?_
    split
    · exact headerByte_decoderFrame _ _ d _ hf
    · exact endOfBits_decoderFrame _ (by simp) (payloadByte_decoderFrame n.toNat d s)

/-- Settles O41: the four outcomes of feed, where a prefix-free table has at most one symbol with the path. -/
theorem feedAccumulatesAndMatches : Obligations.FeedAccumulatesAndMatches :=
  fun _ b htab => ⟨feed_of_overflowed b, fun hovf hfull => feed_of_full b hovf hfull.ge,
    fun _ => feed_of_match htab, feed_of_no_match htab⟩

/-- Settles O43: the two bytes feed the same bits, so the block is in the same state when they end. -/
theorem paddingBitsAreNotExamined : Obligations.PaddingBitsAreNotExamined := by
  intro s t t' n d d' hp hbits h h'
  cases h
  cases h'
  refine guarded_sameButFinfo ?_
  simp only [hp, if_false, payloadByte, payloadBits_congr hbits]
  exact endOfBits_sameButFinfo _ _ _

/-- Settles O37: DEC_START in IDLE, out of sequence, in FAULT, and with an argument bit set. -/
theorem decStartOpensASession : Obligations.DecStartOpensASession :=
  ⟨fun s => exec_decStart, fun s h hf => congrArg _ (guarded_of_illegal _ _ hf (by simp [h])),
    fun s hf => exec_of_fault hf (by simp),
    illCmdOn_of_not_fits (op := 0xA#4) (by decide) (by decide) fun w hlo hhi => mt fits_n_iff.1 (by omega)⟩

/-- Settles O38: the newline and other bytes, each with last = 0 and last = 1, and DEC_END. -/
theorem decByteDeliversTheHeader : Obligations.DecByteDeliversTheHeader := by
  refine ⟨fun s h => ?_, fun s n h => ?_, fun s data h hne => ?_, fun s n data h hne => ?_,
    fun s => exec_decEnd_header⟩
  · rw [exec_decByte_header _ h, headerByte_newline]
    rfl
  · rw [exec_decByteLast_header n _ h, headerByte_newline]
    rfl
  · rw [exec_decByte_header data h, headerByte_text _ s hne]
  · rw [exec_decByteLast_header n data h, headerByte_text_last _ s hne]
    rfl

/-- Settles O42: the two ends of bits, and DEC_END by phase and with an argument bit set. -/
theorem decEndEndsTheBits : Obligations.DecEndEndsTheBits :=
  ⟨fun w s => endOfBits_of_bits w, fun w s => endOfBits_of_empty w,
    fun s h hnil => (exec_decEnd_payload h).trans (congrArg _ (endOfBits_of_empty _ hnil)),
    fun s h hne => (exec_decEnd_payload h).trans (congrArg _ (endOfBits_of_bits _ hne)),
    fun s => exec_decEnd_header, fun s h => congrArg _ (DecOutOfSequence.guarded h _ _),
    fun s hf => exec_of_fault hf (by simp),
    illCmdOn_of_not_fits (op := 0xC#4) (by decide) (by decide) fun w hlo hhi => mt fits_n_iff.1 (by omega)⟩

end Sys2Proof.Machine

/-! PROOFS for the statements of 43_system_commands.md: the phase a command leads to, the legality matrix as the guards
of the commands and the faults of their own rules, and the settled statements. -/

namespace Sys2Proof.Machine

/-! The phase after a command (R183). -/

/-- A command that ends outside FAULT leads to the phase that the transition table gives. -/
theorem Effect.phase_eq {i : Instr} {s t : State} (h : Effect s i t) (ht : t.phase ≠ .fault) :
    t.phase = phaseAfter i s.phase := by
  cases h with
  | ignored hf => exact absurd hf ht
  | faulted | premature => exact absurd rfl ht
  | nop | ctClear | ctOpen | ctBit | ctCommit | encHdrb | encSym | abort => simp [phaseAfter]
  | payloadByte _ _ hp | payloadLast _ _ _ hp | decEnd hp => rcases hp with hp | ⟨hp, -⟩ <;> simp [phaseAfter, hp]
  | _ => simp [phaseAfter, *]

/-- A session ended in its payload phases has an empty accumulator (R157). -/
theorem Effect.acc_of_session_end {i : Instr} {s t : State} (h : Effect s i t)
    (hs : s.phase = .decTbl ∨ s.phase = .decPay) (ht : t.phase = .idle) : t.acc = [] := by
  cases h with
  | payloadLast | abort => rfl
  | decEnd _ hnil => exact hnil
  | faulted | premature | payloadByte => cases ht
  | nop | ctClear | ctOpen | ctBit | ctCommit => exact absurd hs (by simp [show s.phase = .idle from ht])
  | _ => simp [*] at hs

/-- A command that ends in FAULT has faulted or was ignored there, and ABORT ends in IDLE (R183, R202, R204). -/
theorem exec_ends_in_fault {i : Instr} {s t : State} (h : exec i s = .next t) (ht : t.phase = .fault) :
    i ≠ .abort ∧ (s.phase = .fault ∨ (t.fcode ≠ .noFault ∧ t.finfo = encode i)) := by
  constructor
  · rintro rfl
    cases h
    cases ht
  · rcases (exec_effect h).faultRecord with ⟨-, -, hphase⟩ | ⟨-, -, hcode, -, hinfo⟩ | ⟨-, rfl⟩
    · exact .inl (hphase.1 ht)
    · exact .inr ⟨hcode, hinfo⟩
    · cases ht

theorem illFormed_phase (w : CmdWord) (s : State) : (illFormed w s).phase = .fault := by
  rcases illFormed_cases w s with ⟨hf, he⟩ | ⟨-, he⟩ <;> rw [he]
  · exact hf
  · rfl

/-! The legality matrix (R184). -/

/-- The matrix's cell lets the command run its own rule: ok, with its condition on the staging register met. -/
def Cell.admits (s : State) : Cell → Bool
  | .ok => true
  | .okClosed => !stgOpen s
  | .okOpen => stgOpen s
  | .seq | .hdrEnd | .ign => false

theorem okClosed_admits_iff {s : State} : Cell.okClosed.admits s = true ↔ s.stg = none := by
  simp [Cell.admits, stgOpen]

theorem okOpen_admits_iff {s : State} : Cell.okOpen.admits s = true ↔ s.stg ≠ none := by
  simp [Cell.admits, stgOpen, Option.isSome_iff_ne_none]

/-- Where t is in FAULT, its fault is neither of the two that the matrix gives. -/
def NoMatrixFault (t : State) : Prop := t.phase = .fault → t.fcode ≠ .seq ∧ t.fcode ≠ .hdrEnd

theorem NoMatrixFault.of_ne_fault {t : State} (h : t.phase ≠ .fault) : NoMatrixFault t :=
  fun hf => absurd hf h

/-- The column of FAULT holds the ign cells, and ABORT's row has none. -/
theorem matrixCell_eq_ign_iff {i : Instr} {row : Phase → Cell} (hrow : matrixCell i = some row) (p : Phase) :
    row p = .ign ↔ p = .fault ∧ i ≠ .abort := by
  cases i with
  | reservedD | reservedE => cases hrow
  | decByteLast n data =>
    cases hrow
    cases p with
    | decHdr => rw [matrixRow]; split <;> simp
    | _ => simp [matrixRow]
  | _ => cases hrow; cases p <;> simp [matrixRow]

/-- The HDREND cells are in the column of DEC_HDR: those of DEC_END and of a last byte that is not the newline. -/
theorem matrixCell_eq_hdrEnd {i : Instr} {row : Phase → Cell} {p : Phase} (hrow : matrixCell i = some row)
    (hcell : row p = .hdrEnd) :
    p = .decHdr ∧ (i = .decEnd ∨ ∃ n data, i = .decByteLast n data ∧ data ≠ 0x0A#8) := by
  cases i with
  | reservedD | reservedE => cases hrow
  | _ => cases hrow; cases p <;> simp_all [matrixRow]

/-- NOP and ABORT have no cell that can be out of sequence. -/
theorem matrixCell_of_sequenced {i : Instr} {row : Phase → Cell} {p : Phase} (hrow : matrixCell i = some row)
    (hcell : row p ∈ [Cell.okClosed, .okOpen, .seq]) : i ≠ .nop ∧ i ≠ .abort := by
  constructor
  · rintro rfl
    cases hrow
    cases p <;> simp [matrixRow] at hcell
  · rintro rfl
    cases hrow
    cases p <;> simp [matrixRow] at hcell

/-! The guard of each command is its row of the matrix. -/

theorem tablePhase_eq_row (c : Cell) (s : State) :
    (tablePhase s && c.admits s) = (matrixRow c c .seq c c .seq .ign s.phase).admits s := by
  cases hp : s.phase <;> simp [tablePhase, matrixRow, Cell.admits, hp]

theorem idle_eq_row (s : State) :
    (s.phase == .idle) = (matrixRow .ok .seq .seq .seq .seq .seq .ign s.phase).admits s := by
  cases s.phase <;> rfl

theorem encHdr_eq_row (c : Cell) (s : State) :
    (s.phase == .encHdr && c.admits s) = (matrixRow .seq c .seq .seq .seq .seq .ign s.phase).admits s := by
  cases s.phase <;> simp [matrixRow, Cell.admits]

theorem encPay_eq_row (s : State) :
    (s.phase == .encPay) = (matrixRow .seq .seq .ok .seq .seq .seq .ign s.phase).admits s := by
  cases s.phase <;> rfl

/-- The decoder's guard lets the header phase through, whose HDREND cells are the own rules'. -/
theorem decLegal_eq_row {c : Cell} {s : State} (h : s.phase = .decHdr → c = .ok) :
    decLegal s = (matrixRow .seq .seq .seq c .okClosed .ok .ign s.phase).admits s := by
  cases hp : s.phase with
  | decHdr => simp [decLegal, matrixRow, Cell.admits, hp, h hp]
  | _ => simp [decLegal, matrixRow, Cell.admits, hp]

/-! The own rules raise neither E_SEQ nor E_HDREND, but for the HDREND cells. -/

theorem raiseFault_noMatrixFault {f : FCode} (w : CmdWord) (s : State) (h : f ≠ .seq ∧ f ≠ .hdrEnd) :
    NoMatrixFault (raiseFault f w s) :=
  fun _ => h

theorem stageBit_noMatrixFault {s : State} (w : CmdWord) (b : Bool) (hf : s.phase ≠ .fault) :
    NoMatrixFault (stageBit w b s) := by
  rcases stageBit_cases w b s with ⟨-, he⟩ | ⟨r, -, ⟨-, he⟩ | ⟨-, he⟩⟩ <;> rw [he]
  · exact .of_ne_fault hf
  · exact raiseFault_noMatrixFault _ _ (by decide)
  · exact .of_ne_fault hf

theorem commitStaged_noMatrixFault {s : State} (w : CmdWord) (hf : s.phase ≠ .fault) :
    NoMatrixFault (commitStaged w s) := by
  rcases commitStaged_cases w s with ⟨-, he⟩ | ⟨r, -, ⟨-, he⟩ | ⟨-, -, he⟩ | ⟨-, -, -, he⟩ | ⟨-, -, -, he⟩⟩ <;>
    rw [he]
  · exact .of_ne_fault hf
  · exact raiseFault_noMatrixFault _ _ (by decide)
  · exact raiseFault_noMatrixFault _ _ (by decide)
  · exact raiseFault_noMatrixFault _ _ (by decide)
  · exact .of_ne_fault hf

theorem packSymbol_noMatrixFault {s : State} (w : CmdWord) (byte : Byte) (hf : s.phase ≠ .fault) :
    NoMatrixFault (packSymbol w byte s) := by
  rcases packSymbol_cases w byte s with ⟨-, he⟩ | ⟨p, -, he⟩ <;> rw [he]
  · exact raiseFault_noMatrixFault _ _ (by decide)
  · exact .of_ne_fault (by rwa [writeBits_phase])

theorem headerByte_noMatrixFault {s : State} {data : Byte} {last : Bool} (w : CmdWord) (hf : s.phase ≠ .fault)
    (h : last = true → data = 0x0A#8) : NoMatrixFault (headerByte w data last s) := by
  rcases headerByte_cases w data last s with ⟨-, he⟩ | ⟨hne, hl, -⟩ | ⟨-, -, he⟩
  · rw [he]
    exact .of_ne_fault (by cases last <;> simp)
  · exact absurd (h hl) hne
  · rw [he]
    exact .of_ne_fault hf

theorem endOfBits_noMatrixFault (w : CmdWord) (s : State) : NoMatrixFault (endOfBits w s) := by
  rcases endOfBits_cases w s with ⟨-, he⟩ | ⟨-, he⟩ <;> rw [he]
  · exact raiseFault_noMatrixFault _ _ (by decide)
  · exact .of_ne_fault (by simp)

/-! What each cell says. -/

/-- The command i is guarded by the condition legal, and where that holds its own rule raises no fault of the matrix. -/
def GuardedBy (i : Instr) (s : State) (legal : Bool) : Prop :=
  ∃ body : State → State, exec i s = .next (guarded (encode i) legal body s) ∧
    (s.phase ≠ .fault → legal = true → NoMatrixFault (body s))

theorem GuardedBy.of_eq {i : Instr} {s : State} {legal legal' : Bool} {body : State → State}
    (he : exec i s = .next (guarded (encode i) legal body s)) (hl : legal = legal')
    (hrule : s.phase ≠ .fault → legal = true → NoMatrixFault (body s)) : GuardedBy i s legal' := by
  subst hl
  exact ⟨body, he, hrule⟩

/-- Every command but NOP and ABORT is guarded by its row of the matrix, outside the HDREND cells. -/
theorem guardedBy_row {i : Instr} {row : Phase → Cell} {s : State} (hrow : matrixCell i = some row)
    (hnop : i ≠ .nop) (habort : i ≠ .abort) (hcell : row s.phase ≠ .hdrEnd) :
    GuardedBy i s ((row s.phase).admits s) := by
  cases i with
  | nop => exact absurd rfl hnop
  | abort => exact absurd rfl habort
  | reservedD | reservedE => cases hrow
  | ctClear =>
    cases hrow
    exact .of_eq rfl ((Bool.and_true _).symm.trans (tablePhase_eq_row .ok s)) fun hf _ => .of_ne_fault hf
  | ctOpen byte => cases hrow; exact .of_eq rfl (tablePhase_eq_row .okClosed s) fun hf _ => .of_ne_fault hf
  | ctBit b => cases hrow; exact .of_eq rfl (tablePhase_eq_row .okOpen s) fun hf _ => stageBit_noMatrixFault _ b hf
  | ctCommit => cases hrow; exact .of_eq rfl (tablePhase_eq_row .okOpen s) fun hf _ => commitStaged_noMatrixFault _ hf
  | encStart => cases hrow; exact .of_eq rfl (idle_eq_row s) fun _ _ => .of_ne_fault (by simp)
  | encHdrb byte =>
    cases hrow
    exact .of_eq rfl ((Bool.and_true _).symm.trans (encHdr_eq_row .ok s)) fun hf _ => .of_ne_fault hf
  | encHdrend => cases hrow; exact .of_eq rfl (encHdr_eq_row .okClosed s) fun _ _ => .of_ne_fault (by simp)
  | encSym byte => cases hrow; exact .of_eq rfl (encPay_eq_row s) fun hf _ => packSymbol_noMatrixFault _ byte hf
  | encEnd => cases hrow; exact .of_eq rfl (encPay_eq_row s) fun _ _ => .of_ne_fault (by simp [flushPacker])
  | decStart => cases hrow; exact .of_eq rfl (idle_eq_row s) fun _ _ => .of_ne_fault (by simp)
  | decByte data =>
    cases hrow
    refine .of_eq rfl (decLegal_eq_row fun _ => rfl) fun hf _ => ?_
    split
    · exact headerByte_noMatrixFault _ hf (by simp)
    · exact .of_ne_fault (by simp)
  | decByteLast n data =>
    cases hrow
    have hdata : s.phase = .decHdr → data = 0x0A#8 := fun hp => by simpa [matrixRow, hp] using hcell
    refine .of_eq rfl (decLegal_eq_row fun hp => if_pos (hdata hp)) fun hf _ => ?_
    split
    · exact headerByte_noMatrixFault _ hf fun _ => hdata ‹_›
    · exact endOfBits_noMatrixFault _ _
  | decEnd =>
    cases hrow
    have hp : s.phase ≠ .decHdr := fun hp => by simp [matrixRow, hp] at hcell
    refine .of_eq rfl (decLegal_eq_row fun h => absurd h hp) fun _ _ => ?_
    rw [if_neg hp]
    exact endOfBits_noMatrixFault _ s

/-- Where the cell admits the command, its own rule runs. -/
theorem exec_of_admits {i : Instr} {row : Phase → Cell} {s : State} (hrow : matrixCell i = some row)
    (h : (row s.phase).admits s = true) : ∃ t, exec i s = .next t ∧ NoMatrixFault t := by
  by_cases habort : i = .abort
  · subst habort
    exact ⟨clearAll s, rfl, .of_ne_fault (by simp)⟩
  have hf : s.phase ≠ .fault := fun hf => by
    rw [(matrixCell_eq_ign_iff hrow _).2 ⟨hf, habort⟩] at h
    cases h
  by_cases hnop : i = .nop
  · subst hnop
    exact ⟨s, rfl, .of_ne_fault hf⟩
  obtain ⟨body, he, hrule⟩ := guardedBy_row hrow hnop habort fun hcell => by rw [hcell] at h; cases h
  exact ⟨body s, he.trans (congrArg _ (guarded_of_legal _ _ hf h)), hrule hf h⟩

/-- Where a cell with a condition does not admit the command, and at a SEQ cell, the command is out of sequence. -/
theorem exec_of_not_admits {i : Instr} {row : Phase → Cell} {s : State} (hrow : matrixCell i = some row)
    (hcell : row s.phase ∈ [Cell.okClosed, .okOpen, .seq]) (h : (row s.phase).admits s ≠ true) :
    exec i s = .next (raiseFault .seq (encode i) s) := by
  obtain ⟨hnop, habort⟩ := matrixCell_of_sequenced hrow hcell
  have hf : s.phase ≠ .fault := fun hf => by simp [(matrixCell_eq_ign_iff hrow _).2 ⟨hf, habort⟩] at hcell
  have hhdr : row s.phase ≠ .hdrEnd := fun hhdr => by simp [hhdr] at hcell
  obtain ⟨body, he, -⟩ := guardedBy_row hrow hnop habort hhdr
  exact he.trans (congrArg _ (guarded_of_illegal _ _ hf (Bool.eq_false_iff.2 h)))

theorem exec_of_hdrEnd_cell {i : Instr} {row : Phase → Cell} {s : State} (hrow : matrixCell i = some row)
    (hcell : row s.phase = .hdrEnd) : exec i s = .next (raiseFault .hdrEnd (encode i) s) := by
  obtain ⟨hp, rfl | ⟨n, data, rfl, hne⟩⟩ := matrixCell_eq_hdrEnd hrow hcell
  · exact exec_decEnd_header hp
  · rw [exec_decByteLast_header n data hp, headerByte_text_last _ s hne]

/-! The statements. -/

/-- Settles O20: each effect leads to the phase the table gives, an ill-formed word to FAULT, and reset to IDLE. -/
theorem phaseChangesAsTheTransitionTableSays : Obligations.PhaseChangesAsTheTransitionTableSays := by
  refine ⟨fun i s t h ht => ⟨(exec_effect h).phase_eq ht, (exec_effect h).acc_of_session_end⟩,
    fun i s t => exec_ends_in_fault, fun w e s t hdec h => ?_, fun s t h => ?_⟩
  · simp only [runWord, hdec] at h
    cases h
    exact illFormed_phase w s
  · cases h
    rfl

/-- Settles O21: the cells that admit their command, those out of sequence, and the HDREND and ign cells. -/
theorem legalityMatrixHolds : Obligations.LegalityMatrixHolds := by
  intro i row s hrow runs outOfSequence
  split
  next hcell => exact exec_of_admits hrow (by rw [hcell]; rfl)
  next hcell =>
    split
    next hstg => exact exec_of_admits hrow (by rwa [hcell, okClosed_admits_iff])
    next hstg => exact exec_of_not_admits hrow (by simp [hcell]) (by rwa [hcell, ne_eq, okClosed_admits_iff])
  next hcell =>
    split
    next hstg => exact exec_of_not_admits hrow (by simp [hcell]) (by rwa [hcell, ne_eq, okOpen_admits_iff, not_not])
    next hstg => exact exec_of_admits hrow (by rwa [hcell, okOpen_admits_iff])
  next hcell => exact exec_of_not_admits hrow (by simp [hcell]) (by simp [hcell, Cell.admits])
  next hcell => exact exec_of_hdrEnd_cell hrow hcell
  next hcell =>
    obtain ⟨hf, habort⟩ := (matrixCell_eq_ign_iff hrow _).1 hcell
    exact exec_of_fault hf habort

/-- Settles O7: a reserved opcode's word is ill-formed, whatever its argument. -/
theorem reservedOpcodesRaiseIllCmd : Obligations.ReservedOpcodesRaiseIllCmd := by
  intro arg s
  refine ⟨fun hf => ⟨congrArg _ (illFormed_of_ne_fault _ hf), congrArg _ (illFormed_of_ne_fault _ hf)⟩,
    fun hf => ⟨exec_of_fault hf (by simp), exec_of_fault hf (by simp)⟩, fun w s hlo hhi => ?_⟩
  have hd : illCmdOn 0xD000 0xDFFF := illCmdOn_of_not_fits (op := 0xD#4) (by decide) (by decide) fun _ _ _ => id
  have he : illCmdOn 0xE000 0xEFFF := illCmdOn_of_not_fits (op := 0xE#4) (by decide) (by decide) fun _ _ _ => id
  rcases Nat.lt_or_ge w.toNat 0xE000 with h | h
  · exact hd w s hlo (by omega)
  · exact he w s h hhi

/-- Settles O18: NOP is the identity, and its words with an argument bit set do not fit its format. -/
theorem nopChangesNothing : Obligations.NopChangesNothing :=
  ⟨fun _ => rfl,
    illCmdOn_of_not_fits (op := 0x0#4) (by decide) (by decide) fun w hlo hhi => mt fits_n_iff.1 (by omega)⟩

/-- Settles O19: ABORT clears every element and keeps the traces, and its words with an argument bit set do not fit its
format. -/
theorem abortReturnsToReset : Obligations.AbortReturnsToReset :=
  ⟨fun _ => rfl,
    illCmdOn_of_not_fits (op := 0xF#4) (by decide) (by decide) fun w hlo hhi => mt fits_n_iff.1 (by omega)⟩

end Sys2Proof.Machine

/-! PROOFS for the statements of 60_exceptions.md: what a word does in phase FAULT, how it is left, and what a command
that faults has changed. -/

namespace Sys2Proof.Machine

/-! Phase FAULT (R204, R205). -/

/-- Phase FAULT ignores every word but ABORT's (R204): a word that decodes to another command, and one that decodes to
none. -/
theorem runWord_ignored {w : CmdWord} {s : State} (hf : s.phase = .fault) (hw : w ≠ 0xF000#16) :
    runWord w s = .next s := by
  rcases runWord_cases w s with ⟨i, hdec, he⟩ | ⟨e, -, he⟩ <;> rw [he]
  · refine exec_of_fault hf fun hi => hw ?_
    rw [← encode_of_decode hdec, hi]
    rfl
  · rw [illFormed_of_fault w hf]

/-- A word that leaves phase FAULT is ABORT's, which clears every element (R205). -/
theorem runWord_leaves_fault {w : CmdWord} {s t : State} (h : runWord w s = .next t) (hs : s.phase = .fault)
    (ht : t.phase ≠ .fault) : w = 0xF000#16 ∧ t = clearAll s := by
  constructor
  · by_contra hw
    rw [runWord_ignored hs hw] at h
    cases h
    exact ht hs
  · exact (runWord_of_fault h hs).resolve_left fun he => ht (he ▸ hs)

/-! What a command that faults has changed (R203). -/

/-- A last byte that faults at a payload has fed its bits and then raised E_PREMEND (R157, R203). -/
theorem exec_decByteLast_premature {s t : State} {n : BitVec 4} {data : Byte}
    (h : exec (.decByteLast n data) s = .next t) (hp : AtPayload s) (hn : n.toNat ≤ 8) (ht : t.phase = .fault) :
    t = raiseFault .premEnd (encode (.decByteLast n data))
      (feedBits { s with phase := .decPay } (topBits n.toNat data)) := by
  rw [exec_decByteLast_payload data hp hn] at h
  cases h
  rcases endOfBits_cases (encode (.decByteLast n data)) (feedBits { s with phase := .decPay } (topBits n.toNat data))
    with ⟨-, he⟩ | ⟨-, he⟩
  · exact he
  · rw [he] at ht
    cases ht

/-- A command that takes the block to FAULT has changed the fault record only, but for DEC_BYTE with last = 1 at a
payload (R203). -/
theorem exec_fault_precise {i : Instr} {s t : State} (h : exec i s = .next t) (hi : i.wf = true)
    (hs : s.phase ≠ .fault) (ht : t.phase = .fault) :
    t = { s with fcode := t.fcode, finfo := encode i, phase := .fault } ∨
      ∃ n data, i = .decByteLast n data ∧ AtPayload s ∧
        t = raiseFault .premEnd (encode i) (feedBits { s with phase := .decPay } (topBits n.toNat data)) := by
  cases exec_effect h with
  | faulted => exact .inl rfl
  | premature n data _ hp =>
    obtain ⟨-, hn⟩ := of_decide_eq_true hi
    exact .inr ⟨n, data, rfl, hp, exec_decByteLast_premature h hp hn ht⟩
  | encStart | encHdrend | encEnd | decStart | headerEnd | headerLast | payloadByte | payloadLast | decEnd | abort =>
    cases ht
  | _ => exact absurd ht hs

/-- DEC_END feeds no bits, so its E_PREMEND changes the fault record only (R158, R203). -/
theorem exec_decEnd_premature {s t : State} (h : exec .decEnd s = .next t) (ht : t.fcode = .premEnd)
    (hs : s.fcode ≠ .premEnd) : t = raiseFault .premEnd (encode .decEnd) s := by
  cases exec_effect h with
  | ignored | decEnd => exact absurd ht hs
  | faulted f =>
    obtain rfl : f = .premEnd := ht
    rfl

/-! The statements. -/

/-- Settles O14: a step that takes a word other than ABORT's runs it, and phase FAULT ignores it. -/
theorem faultPhaseIgnoresAllButAbort : Obligations.FaultPhaseIgnoresAllButAbort := by
  refine ⟨fun w s => runWord_ignored, fun w s rest hf hw hin => ?_⟩
  rw [step_of_input hin]
  exact runWord_ignored hf hw

/-- Settles O15: a step that leaves FAULT did not wait, so it took ABORT's word or reset, and both clear every
element. -/
theorem onlyAbortOrResetLeavesFault : Obligations.OnlyAbortOrResetLeavesFault := by
  intro s t hs h ht
  rcases step_word_or_reset h with rfl | ⟨w, rest, hin, hrun⟩ | ⟨⟨x, rest, hin, hx⟩, hclear⟩
  · exact absurd hs ht
  · obtain ⟨rfl, rfl⟩ := runWord_leaves_fault hrun hs ht
    exact ⟨⟨_, rest, hin, .inl rfl⟩, rfl⟩
  · exact ⟨⟨x, rest, hin, .inr hx⟩, hclear⟩

/-- Settles O16: a command's fault is taken before it has changed anything, or is the one of a last payload byte; an
ill-formed word only raises E_ILLCMD; and DEC_END feeds nothing. -/
theorem faultsArePrecise : Obligations.FaultsArePrecise := by
  refine ⟨fun w s t hs h ht => ?_, fun s t => exec_decEnd_premature, fun w s => runWord_ignored⟩
  rcases runWord_cases w s with ⟨i, hdec, he⟩ | ⟨e, -, he⟩ <;> rw [he] at h
  · rw [← encode_of_decode hdec]
    refine (exec_fault_precise h (wf_of_decode hdec) hs ht).imp_right ?_
    rintro ⟨n, data, rfl, hp, rfl⟩
    exact ⟨rfl, n, data, decode_encode (wf_of_decode hdec), hp.symm.imp_left And.left, rfl⟩
  · rw [illFormed_of_ne_fault w hs] at h
    cases h
    exact .inl rfl

/-- Settles O13: the fault entry is its three writes, and the fault output compares PHASE with FAULT. -/
theorem faultEntryWritesThreeElements : Obligations.FaultEntryWritesThreeElements :=
  ⟨fun _ _ _ => ⟨rfl, rfl⟩, fun _ => beq_iff_eq⟩

end Sys2Proof.Machine
